-- ==== Sys2Proof/Word.lean ====
section
/-! DEFINITION. The word types of the core (00_scope.md R6 to R8): every register, every data word and every
instruction word is a 32-bit pattern. `u(v)` of the spec is `v.toNat`, `s(v)` is `v.toInt`. -/

namespace Sys2Proof

/-- A 32-bit pattern (R8); bit 31 is the most significant (R7). -/
abbrev Word := BitVec 32

/-- The number of a general register, 0 to 31 (R20): every 5-bit field value names a register. -/
abbrev RegIdx := Fin 32

/-- The 16-bit immediate field `imm = w[15:0]` (R61). -/
abbrev Imm16 := BitVec 16

/-- The 26-bit jump target field `w[25:0]` (R64). -/
abbrev Target := BitVec 26

end Sys2Proof
end

