-- ==== Sys2Proof/Config.lean ====
section
/-! DEFINITION. The implementation parameters of 00_scope.md R6: the sizes and the two sentinel words, which the
source fixes, and the six named parameters, each at the spec's default ("the default is the value every rule of this
spec uses"). No value is left free by the spec, so nothing here is opaque. -/

namespace Sys2Proof.Config

/-- `IMEM_WORDS`: the instruction memory has 256 words (R6, R33). -/
def imemWords : Nat := 256

/-- `DMEM_WORDS`: the data memory has 1024 words (R6, R32). -/
def dmemWords : Nat := 1024

/-- The halt sentinel (R65). -/
def haltWord : Word := 0xFFFFFFFF#32

/-- The empty sentinel (R65). -/
def emptyWord : Word := 0x00000000#32

/-- `R0_HARDWIRED` (R6, R22, decision D1). DESIGN CHOICE of the spec, unsafe: log 1. -/
def r0Hardwired : Bool := false

/-- `INIT_REGS`, the same value for all 32 (R6, R23, decision D2). DESIGN CHOICE of the spec, unsafe: log 2. -/
def initReg : Word := 0x00000000#32

/-- What a word of either memory reads as while nothing has written it: `INIT_DMEM` for the data memory (R6, R32,
decision D2), the zero fill of `load` and the power-on value for the instruction memory (R33, R36).
DESIGN CHOICE of the spec, unsafe: log 22. -/
def unlistedWord : Word := 0x00000000#32

/-- `INC_ON_OOR_FETCH` (R6, R91, decision D4). DESIGN CHOICE of the spec, unsafe: log 4. -/
def incOnOorFetch : Bool := false

/-- The two values of `PC_AFTER_ERROR` (R6). -/
inductive PcAfterError where
  | incremented
  | restored
  deriving DecidableEq, Repr

/-- `PC_AFTER_ERROR` (R6, R154, decision D7). DESIGN CHOICE of the spec, unsafe: log 7. -/
def pcAfterError : PcAfterError := .incremented

/-- `BEQ_SIGN_EXTENDS` (R6, R126, decision D12). DESIGN CHOICE of the spec, unsafe: log 12. -/
def beqSignExtends : Bool := false

end Sys2Proof.Config
end

