-- ==== Sys2Proof/Syntax.lean ====
section
/-! DEFINITION. The instruction set as syntax: one constructor per row of spec/opcode_table.json (30_encoding.md R65,
R66), and the three word formats with numeric fields that the encoder goes through (R62 to R64, R74). -/

namespace Sys2Proof

/-- The 18 instructions and the two sentinel words. Operands stand in the order in which the assembly form writes
them (R77); their types are the widths of their fields (R61), so every field value is an operand (R20). -/
inductive Instr where
  /-- `ADD rd, rs, rt` (R112). -/
  | add (rd rs rt : RegIdx)
  /-- `ADDU rd, rs, rt` (R113). -/
  | addu (rd rs rt : RegIdx)
  /-- `SUB rd, rs, rt` (R114). -/
  | sub (rd rs rt : RegIdx)
  /-- `SUBU rd, rs, rt` (R115). -/
  | subu (rd rs rt : RegIdx)
  /-- `AND rd, rs, rt` (R116). -/
  | and (rd rs rt : RegIdx)
  /-- `OR rd, rs, rt` (R117). -/
  | or (rd rs rt : RegIdx)
  /-- `XOR rd, rs, rt` (R118). -/
  | xor (rd rs rt : RegIdx)
  /-- `NOR rd, rs, rt` (R119). -/
  | nor (rd rs rt : RegIdx)
  /-- `J target` (R125). -/
  | j (target : Target)
  /-- `BEQ rs, rt, imm` (R126). -/
  | beq (rs rt : RegIdx) (imm : Imm16)
  /-- `BNE rs, rt, imm` (R127). -/
  | bne (rs rt : RegIdx) (imm : Imm16)
  /-- `ADDI rt, rs, imm` (R136). -/
  | addi (rt rs : RegIdx) (imm : Imm16)
  /-- `ADDIU rt, rs, imm` (R137). -/
  | addiu (rt rs : RegIdx) (imm : Imm16)
  /-- `ANDI rt, rs, imm` (R138). -/
  | andi (rt rs : RegIdx) (imm : Imm16)
  /-- `ORI rt, rs, imm` (R139). -/
  | ori (rt rs : RegIdx) (imm : Imm16)
  /-- `XORI rt, rs, imm` (R140). -/
  | xori (rt rs : RegIdx) (imm : Imm16)
  /-- `LW rt, imm(rs)` (R146). -/
  | lw (rt : RegIdx) (imm : Imm16) (rs : RegIdx)
  /-- `SW rt, imm(rs)` (R147). -/
  | sw (rt : RegIdx) (imm : Imm16) (rs : RegIdx)
  /-- The whole word `0xFFFFFFFF` (R93). -/
  | halt
  /-- The whole word `0x00000000` (R94). -/
  | empty
  deriving DecidableEq, Repr

/-- The mnemonic of an instruction's row in spec/opcode_table.json. -/
def Instr.mnemonic : Instr → String
  | .add _ _ _ => "ADD"
  | .addu _ _ _ => "ADDU"
  | .sub _ _ _ => "SUB"
  | .subu _ _ _ => "SUBU"
  | .and _ _ _ => "AND"
  | .or _ _ _ => "OR"
  | .xor _ _ _ => "XOR"
  | .nor _ _ _ => "NOR"
  | .j _ => "J"
  | .beq _ _ _ => "BEQ"
  | .bne _ _ _ => "BNE"
  | .addi _ _ _ => "ADDI"
  | .addiu _ _ _ => "ADDIU"
  | .andi _ _ _ => "ANDI"
  | .ori _ _ _ => "ORI"
  | .xori _ _ _ => "XORI"
  | .lw _ _ _ => "LW"
  | .sw _ _ _ => "SW"
  | .halt => "HALT"
  | .empty => "EMPTY"

/-- A word described by its format's fields, as numbers (R62, R63, R64, R65). Nothing bounds a field here:
`WordFormat.wellFormed` checks that each is "within its width" (R74). -/
inductive WordFormat where
  /-- R-format with opcode 0x00 and bits 10 to 6 zero (R62, R69). -/
  | rFormat (rs rt rd funct : Nat)
  /-- I-format (R63). -/
  | iFormat (op rs rt imm : Nat)
  /-- J-format with opcode 0x02 (R64). -/
  | jFormat (target : Nat)
  /-- A word recognised whole (R65). -/
  | sentinel (w : Nat)
  deriving DecidableEq, Repr

end Sys2Proof
end

