-- ==== Sys2Proof/WellFormed.lean ====
section
/-! DEFINITION. Well-formedness: "every field within its width" (30_encoding.md R74). The checks stand on the numeric
fields of a word's format. An `Instr` needs none: its operand types are the widths of its fields, and "every 5-bit
field value names a register and no register field can be out of range" (10_state.md R20); that the format of every
instruction passes the checks is `Laws.FormatWellFormed`. -/

namespace Sys2Proof.WordFormat

/-- A register field has 5 bits (R61). -/
def regOk (r : Nat) : Bool := r < 2 ^ 5

/-- The opcode and the function code have 6 bits (R61). -/
def codeOk (c : Nat) : Bool := c < 2 ^ 6

/-- The immediate field has 16 bits (R61). -/
def immOk (i : Nat) : Bool := i < 2 ^ 16

/-- The jump target has 26 bits (R64). -/
def targetOk (t : Nat) : Bool := t < 2 ^ 26

/-- Every field of the format is within its width (R74). -/
def wellFormed : WordFormat → Bool
  | .rFormat rs rt rd funct => regOk rs && regOk rt && regOk rd && codeOk funct
  | .iFormat op rs rt imm => codeOk op && regOk rs && regOk rt && immOk imm
  | .jFormat target => targetOk target
  | .sentinel w => w < 2 ^ 32

end Sys2Proof.WordFormat
end

