-- ==== Sys2Proof/Decode.lean ====
section
/-! DEFINITION. Decoding (30_encoding.md R61, R65, R66, R70, R71), total on every 32-bit word and rejecting by name, and
the encoder (R62 to R66, R74). -/

namespace Sys2Proof

/-! ## The fixed fields of a word (R61) -/

/-- `op = w[31:26]`. -/
def opField (w : Word) : BitVec 6 := w.extractLsb' 26 6

/-- `rs = w[25:21]`, the number of a register (R20). -/
def rsField (w : Word) : RegIdx := ⟨(w.extractLsb' 21 5).toNat, (w.extractLsb' 21 5).isLt⟩

/-- `rt = w[20:16]`, the number of a register (R20). -/
def rtField (w : Word) : RegIdx := ⟨(w.extractLsb' 16 5).toNat, (w.extractLsb' 16 5).isLt⟩

/-- `rd = w[15:11]`, the number of a register (R20). -/
def rdField (w : Word) : RegIdx := ⟨(w.extractLsb' 11 5).toNat, (w.extractLsb' 11 5).isLt⟩

/-- `imm = w[15:0]`. -/
def immField (w : Word) : Imm16 := w.extractLsb' 0 16

/-- `funct = w[5:0]`. -/
def functField (w : Word) : BitVec 6 := w.extractLsb' 0 6

/-- `target = w[25:0]` (R64, decision D13). DESIGN CHOICE of the spec, unsafe: log 13. -/
def targetField (w : Word) : Target := w.extractLsb' 0 26

/-! ## Decoding -/

/-- Why a word is no instruction: the two default arms of the dispatch (R70, R71). Both are the one error
`UnknownInstruction` of the step (R151). -/
inductive DecodeError where
  /-- The opcode is none of the eleven in use (R67, R71). Raised by `decode`; safe. -/
  | unknownOpcode (op : BitVec 6)
  /-- The opcode is 0x00 and the function code is none of the eight in use (R67, R71). Raised by `decode`; safe. -/
  | unknownFunction (funct : BitVec 6)
  deriving DecidableEq, Repr

/-- The nested dispatch on the function code for opcode 0x00 (R66, R70). Bits 10 to 6 are not looked at (R69,
decision D14; DESIGN CHOICE of the spec, unsafe: log 14). -/
def decodeFunct (w : Word) : Except DecodeError Instr :=
  match functField w with
  | 0x20#6 => .ok (.add (rdField w) (rsField w) (rtField w))
  | 0x21#6 => .ok (.addu (rdField w) (rsField w) (rtField w))
  | 0x22#6 => .ok (.sub (rdField w) (rsField w) (rtField w))
  | 0x23#6 => .ok (.subu (rdField w) (rsField w) (rtField w))
  | 0x24#6 => .ok (.and (rdField w) (rsField w) (rtField w))
  | 0x25#6 => .ok (.or (rdField w) (rsField w) (rtField w))
  | 0x26#6 => .ok (.xor (rdField w) (rsField w) (rtField w))
  | 0x27#6 => .ok (.nor (rdField w) (rsField w) (rtField w))
  | funct => .error (.unknownFunction funct)

/-- The dispatch on the opcode (R66, R70). -/
def decodeOpcode (w : Word) : Except DecodeError Instr :=
  match opField w with
  | 0x00#6 => decodeFunct w
  | 0x02#6 => .ok (.j (targetField w))
  | 0x04#6 => .ok (.beq (rsField w) (rtField w) (immField w))
  | 0x05#6 => .ok (.bne (rsField w) (rtField w) (immField w))
  | 0x08#6 => .ok (.addi (rtField w) (rsField w) (immField w))
  | 0x09#6 => .ok (.addiu (rtField w) (rsField w) (immField w))
  | 0x0C#6 => .ok (.andi (rtField w) (rsField w) (immField w))
  | 0x0D#6 => .ok (.ori (rtField w) (rsField w) (immField w))
  | 0x0E#6 => .ok (.xori (rtField w) (rsField w) (immField w))
  | 0x23#6 => .ok (.lw (rtField w) (immField w) (rsField w))
  | 0x2B#6 => .ok (.sw (rtField w) (immField w) (rsField w))
  | op => .error (.unknownOpcode op)

/-- The instruction a word is, in the fixed order of recognition (R70): the halt word, then the empty word, each
compared whole, and only then the dispatch. -/
def decode (w : Word) : Except DecodeError Instr :=
  if w = Config.haltWord then .ok .halt
  else if w = Config.emptyWord then .ok .empty
  else decodeOpcode w

/-- The instruction the decoder reads from a row of spec/opcode_table.json given as a number of `nbits` bits
(98_reader.md); every instruction is one 32-bit word (R60), in which a row's bits are numbered as in the table (R45). -/
def decodeTableWord (nbits w : Nat) : Option Instr :=
  match decode (BitVec.ofNat 32 (w % 2 ^ nbits)) with
  | .ok i => some i
  | .error _ => none

/-! ## Encoding -/

/-- The format and the fields of an instruction, from the table of R66. -/
def Instr.format : Instr → WordFormat
  | .add rd rs rt => .rFormat rs rt rd 0x20
  | .addu rd rs rt => .rFormat rs rt rd 0x21
  | .sub rd rs rt => .rFormat rs rt rd 0x22
  | .subu rd rs rt => .rFormat rs rt rd 0x23
  | .and rd rs rt => .rFormat rs rt rd 0x24
  | .or rd rs rt => .rFormat rs rt rd 0x25
  | .xor rd rs rt => .rFormat rs rt rd 0x26
  | .nor rd rs rt => .rFormat rs rt rd 0x27
  | .j target => .jFormat target.toNat
  | .beq rs rt imm => .iFormat 0x04 rs rt imm.toNat
  | .bne rs rt imm => .iFormat 0x05 rs rt imm.toNat
  | .addi rt rs imm => .iFormat 0x08 rs rt imm.toNat
  | .addiu rt rs imm => .iFormat 0x09 rs rt imm.toNat
  | .andi rt rs imm => .iFormat 0x0C rs rt imm.toNat
  | .ori rt rs imm => .iFormat 0x0D rs rt imm.toNat
  | .xori rt rs imm => .iFormat 0x0E rs rt imm.toNat
  | .lw rt imm rs => .iFormat 0x23 rs rt imm.toNat
  | .sw rt imm rs => .iFormat 0x2B rs rt imm.toNat
  | .halt => .sentinel 0xFFFFFFFF
  | .empty => .sentinel 0x00000000

/-- The number "built from fields" (R74). -/
def WordFormat.number : WordFormat → Nat
  | .rFormat rs rt rd funct => rs <<< 21 ||| rt <<< 16 ||| rd <<< 11 ||| funct
  | .iFormat op rs rt imm => op <<< 26 ||| rs <<< 21 ||| rt <<< 16 ||| imm
  | .jFormat target => 0x02 <<< 26 ||| target
  | .sentinel w => w

/-- The word of an instruction (R66, R74); an R-format word has zeros in bits 10 to 6 (R69). -/
def encode (i : Instr) : Word := BitVec.ofNat 32 i.format.number

/-! ## The opcode table (R65, R66) -/

/-- One row of the opcode table. -/
structure OpcodeRow where
  mnemonic : String
  pattern  : Word
  mask     : Word
  deriving DecidableEq, Repr

/-- The 18 rows of R66 (`match` and `mask` columns) and the two whole words of R65. -/
def opcodeTable : List OpcodeRow :=
  [ ⟨"ADD",   0x00000020#32, 0xFC00003F#32⟩, ⟨"ADDU",  0x00000021#32, 0xFC00003F#32⟩,
    ⟨"SUB",   0x00000022#32, 0xFC00003F#32⟩, ⟨"SUBU",  0x00000023#32, 0xFC00003F#32⟩,
    ⟨"AND",   0x00000024#32, 0xFC00003F#32⟩, ⟨"OR",    0x00000025#32, 0xFC00003F#32⟩,
    ⟨"XOR",   0x00000026#32, 0xFC00003F#32⟩, ⟨"NOR",   0x00000027#32, 0xFC00003F#32⟩,
    ⟨"J",     0x08000000#32, 0xFC000000#32⟩, ⟨"BEQ",   0x10000000#32, 0xFC000000#32⟩,
    ⟨"BNE",   0x14000000#32, 0xFC000000#32⟩, ⟨"ADDI",  0x20000000#32, 0xFC000000#32⟩,
    ⟨"ADDIU", 0x24000000#32, 0xFC000000#32⟩, ⟨"ANDI",  0x30000000#32, 0xFC000000#32⟩,
    ⟨"ORI",   0x34000000#32, 0xFC000000#32⟩, ⟨"XORI",  0x38000000#32, 0xFC000000#32⟩,
    ⟨"LW",    0x8C000000#32, 0xFC000000#32⟩, ⟨"SW",    0xAC000000#32, 0xFC000000#32⟩,
    ⟨"HALT",  0xFFFFFFFF#32, 0xFFFFFFFF#32⟩, ⟨"EMPTY", 0x00000000#32, 0xFFFFFFFF#32⟩ ]

/-- "A word `w` is the instruction of a row when `w & mask = match`" (R66). -/
def OpcodeRow.hits (row : OpcodeRow) (w : Word) : Bool := w &&& row.mask == row.pattern

end Sys2Proof
end

