-- ==== Sys2Proof/Machine/Flags.lean ====
section
/-! DEFINITION. The one flag computation: signed overflow (41_alu_register.md R111, R120). -/

namespace Sys2Proof.Machine

/-- An exact signed result lies in the representable range, -2^31 to 2^31 - 1 (R12 "overflow condition", R111). The
overflow report OVF is its negation (10_state.md R28). -/
def fitsSigned32 (r : Int) : Bool := -2 ^ 31 ≤ r && r ≤ 2 ^ 31 - 1

/-- The overflow test of ADD and ADDI in bits (R120): `a[31] = b[31]` and `r[31] != a[31]`. -/
def addOverflowBits (a b : Word) : Bool :=
  a.msb == b.msb && (a + b).msb != a.msb

/-- The overflow test of SUB in bits (R120): `a[31] != b[31]` and `r[31] != a[31]`. -/
def subOverflowBits (a b : Word) : Bool :=
  a.msb != b.msb && (a - b).msb != a.msb

end Sys2Proof.Machine
end

