-- ==== Sys2Proof/Machine/Operands.lean ====
section
/-! DEFINITION. The operand forms (30_encoding.md R68, 00_scope.md R8, R9): how a field becomes an operand, and how an
exact integer becomes a 32-bit pattern again. -/

namespace Sys2Proof.Machine

/-- `trunc32(n)`: the pattern `p` with `u(p) = n mod 2^32` (R8). -/
def trunc32 (n : Int) : Word := BitVec.ofInt 32 n

/-- `sext_32(i)` (R9). -/
def sext32 (i : Imm16) : Word := i.signExtend 32

/-- `zext_32(i)` (R9). -/
def zext32 (i : Imm16) : Word := i.setWidth 32

/-- `simm(i) = s(sext_32(i))`, in -32768 to 32767 (R9). -/
def simm (i : Imm16) : Int := (sext32 i).toInt

/-- `u(i) = u(zext_32(i))`, in 0 to 65535 (R9). -/
def uimm (i : Imm16) : Int := (zext32 i).toNat

/-- The addend of a taken BEQ: `u(imm)`, the field not sign-extended (R68, R126, conflict C3, decision D12).
DESIGN CHOICE of the spec, unsafe: log 12. -/
def beqOffset (i : Imm16) : Int := if Config.beqSignExtends then simm i else uimm i

/-- The addend of a taken BNE: `simm(imm)` (R68, R127). -/
def bneOffset (i : Imm16) : Int := simm i

/-- The index a J writes to `pc`: `u(target)` (R68, R125). -/
def jumpIndex (t : Target) : Int := t.toNat

/-- The bounds check of LW and SW, `0 <= a <= 1023` on the exact sum (20_memory.md R44); a negative address is out of
bounds (decision D11; DESIGN CHOICE of the spec, safe: log 11). -/
def dataInBounds (a : Int) : Bool := 0 ≤ a && a < Config.dmemWords

end Sys2Proof.Machine
end

