-- ==== Sys2Proof/Machine/State.lean ====
section
/-! DEFINITION. The state of the core (10_state.md R35), the two outputs of a step, the reasons a step can stop, and the
state after power-on (R36). -/

namespace Sys2Proof.Machine

/-- The run-state (R30). -/
inductive RunState where
  /-- Nothing has been loaded since power-on. -/
  | idle
  /-- A program is loaded and has not ended. -/
  | loaded
  /-- The halt word has been executed. -/
  | halted
  /-- The empty word has been executed, or a fetch was out of range. -/
  | empty
  deriving DecidableEq, Repr

/-- The two errors a step can raise (60_exceptions.md R150, R157) and what each hands the host (decision D15;
DESIGN CHOICE of the spec, safe: log 15). -/
inductive StepError where
  /-- `UnknownInstruction`, with the fetched word (R151). -/
  | unknownInstruction (w : Word)
  /-- `DataAddressOutOfBounds`, with the effective address as an exact integer (R152). -/
  | dataAddressOutOfBounds (a : Int)
  deriving DecidableEq, Repr

/-- The outcome a step returns (40_fetch_step.md R96). -/
inductive StepOutcome where
  | continued
  | halted
  | empty
  | error (e : StepError)
  deriving DecidableEq, Repr

/-- A memory: the words that differ from `Config.unlistedWord`, each with its word index, in rising order
(`Memory.wf`, Machine/Ops.lean). The addressable unit is the 32-bit word and no word is a sequence of bytes
(20_memory.md R43, R45, R47; log 17). -/
abbrev Memory := List (Nat × Word)

/-- The state of the core. The first five fields are the tuple of R35; `outcome` and `ovf` are the outputs of the last
step (R28, R96), which no instruction reads: the model's own fields, log 8. -/
structure State where
  /-- The general registers `x[0..31]` (R20). -/
  regs    : Vector Word 32
  /-- The program counter, an instruction index of 32 bits (R24, decision D3; log 3). -/
  pc      : Word
  /-- The data memory, word indices 0 to 1023 (R32). -/
  dmem    : Memory
  /-- The instruction memory, indices 0 to 255 (R33). -/
  imem    : Memory
  /-- The run-state (R30). -/
  run     : RunState
  /-- The outcome of the last step; none when no step has run since power-on or the last `load`. -/
  outcome : Option StepOutcome
  /-- The overflow report of the last step (R28, R36). -/
  ovf     : Bool
  deriving DecidableEq, Repr

/-- The reasons a step can stop the machine with a fault: there are none. The two errors of the spec end one step only
and leave a state from which the run goes on (60_exceptions.md R154, R155), so they are next states (log 7). -/
inductive Fault where
  deriving DecidableEq, Repr

/-- The reasons a step is given no meaning. -/
inductive Refusal where
  /-- An instruction that has no meaning yet, by its mnemonic. Raised by no arm of `exec` today; safe. -/
  | notModelled (mnemonic : String)
  /-- A step in run-state Idle: "refused, the host must `load` first" (10_state.md R31, 40_fetch_step.md R90,
  decision D6). Raised by `step`; safe: log 6. -/
  | stepBeforeLoad
  deriving DecidableEq, Repr

/-- The state after power-on (10_state.md R36, 70_reset_and_hazards.md R170): all registers and both memories zero,
`pc = 0`, run-state Idle, OVF not asserted, no step run. The zeros are the spec's decision D2 (log 2). -/
def State.reset : State where
  regs    := Vector.replicate 32 Config.initReg
  pc      := 0x00000000#32
  dmem    := []
  imem    := []
  run     := .idle
  outcome := none
  ovf     := false

end Sys2Proof.Machine
end

