-- ==== Sys2Proof/Machine/Ops.lean ====
section
/-! DEFINITION. The named operations over the state: memory, registers, `pc`, the outputs of a step, raising an error,
fetching. Every instruction's meaning is written with these (00_scope.md R10). -/

namespace Sys2Proof.Machine

/-! ## Memory (20_memory.md R41, R43) -/

/-- The word at index `a`: the listed one, else what an unlisted word reads as. -/
def Memory.read : Memory → Nat → Word
  | [], _ => Config.unlistedWord
  | (k, v) :: m, a => if k = a then v else Memory.read m a

/-- Puts a cell before the first one with a greater index. -/
def Memory.place (a : Nat) (v : Word) : Memory → Memory
  | [] => [(a, v)]
  | (k, x) :: m => if a < k then (a, v) :: (k, x) :: m else (k, x) :: Memory.place a v m

/-- Makes the word at index `a` be `v` and changes no other word (R43). The form stays canonical: a word equal to
`Config.unlistedWord` is not listed. -/
def Memory.write (m : Memory) (a : Nat) (v : Word) : Memory :=
  let rest := m.filter (fun c => c.1 != a)
  if v = Config.unlistedWord then rest else Memory.place a v rest

/-- The memory that holds `words` from index `k` on and nothing else (70_reset_and_hazards.md R172). -/
def Memory.ofWords : Nat → List Word → Memory
  | _, [] => []
  | k, w :: ws =>
    if w = Config.unlistedWord then Memory.ofWords (k + 1) ws else (k, w) :: Memory.ofWords (k + 1) ws

/-- The canonical form of a memory of `size` words: indices strictly rising, every index below `size`, no listed word
equal to what an unlisted word reads as. -/
def Memory.wf (size : Nat) (m : Memory) : Bool :=
  decide (m.Pairwise (fun c d => c.1 < d.1)) && m.all (fun c => decide (c.1 < size) && c.2 != Config.unlistedWord)

/-- `MemRead(a, 1)` of the data memory (R43). -/
def State.readData (a : Nat) (s : State) : Word := s.dmem.read a

/-- `MemWrite(a, 1, v)` of the data memory (R43). -/
def State.writeData (a : Nat) (v : Word) (s : State) : State := { s with dmem := s.dmem.write a v }

/-! ## General registers (10_state.md R20, R22; 00_scope.md R10) -/

/-- `x[r]`. -/
def State.readReg (r : RegIdx) (s : State) : Word :=
  if Config.r0Hardwired && r == 0 then 0x00000000#32 else s.regs[r.val]'r.isLt

/-- `x[r] <- v`; register 0 is written like any other (R22, decision D1; DESIGN CHOICE of the spec, unsafe: log 1). -/
def State.writeReg (r : RegIdx) (v : Word) (s : State) : State :=
  if Config.r0Hardwired && r == 0 then s else { s with regs := s.regs.set r.val v r.isLt }

/-! ## Program counter, run-state and the outputs of a step -/

/-- `pc <- t`, that is `pc <- trunc32(t)` (R10; arithmetic modulo 2^32 by decision D3, log 3). -/
def State.jumpTo (t : Int) (s : State) : State := { s with pc := trunc32 t }

/-- `pc <- pc + d` with `pc` read as an unsigned number (R126, R127). -/
def State.jumpBy (d : Int) (s : State) : State := s.jumpTo (s.pc.toNat + d)

/-- The fetch's `pc <- pc + 1` (40_fetch_step.md R92). -/
def State.advancePc (s : State) : State := s.jumpBy 1

/-- `run <- r`. -/
def State.setRun (r : RunState) (s : State) : State := { s with run := r }

/-- The result a step returns: its outcome and OVF (40_fetch_step.md R96). -/
def State.report (o : StepOutcome) (ovf : Bool) (s : State) : State := { s with outcome := some o, ovf := ovf }

/-- `outcome CONTINUED` without an overflow report. -/
def State.continued (s : State) : State := s.report .continued false

/-- `report OVF`, then `outcome CONTINUED` (10_state.md R28, 60_exceptions.md R153). -/
def State.overflowed (s : State) : State := s.report .continued true

/-! ## Raising an error: the only exception mechanism (60_exceptions.md R150 to R155) -/

/-- `raise E(info)`: ends the step with outcome `ERROR(E)` and OVF false. Nothing is written, nothing is saved and
control goes nowhere; the fetch's increment of `pc` stands and the run-state stays as it is, so the next step executes
the following word (R10, R154, R155, decision D7; DESIGN CHOICE of the spec, unsafe: log 7). There is no handler, and
no return from exception to model (R155). -/
def State.raise (e : StepError) (s : State) : State :=
  match Config.pcAfterError with
  | .incremented => s.report (.error e) false
  | .restored => (s.jumpBy (-1)).report (.error e) false

/-! ## Fetch (40_fetch_step.md R91, R92) -/

/-- `IMemRead(pc)` when `pc <= 255`; nothing otherwise (20_memory.md R41, R42). -/
def State.fetchWord (s : State) : Option Word :=
  if s.pc.toNat < Config.imemWords then some (s.imem.read s.pc.toNat) else none

/-- A fetch with `pc > 255`: `run <- Empty`, outcome `EMPTY`, `pc` unchanged (R91, decision D4; DESIGN CHOICE of the
spec, unsafe: log 4). -/
def State.fetchOutOfRange (s : State) : State :=
  ((if Config.incOnOorFetch then s.advancePc else s).setRun .empty).report .empty false

/-! ## Shared endings of the instructions -/

/-- The result of ADD, SUB and ADDI: the exact result `r` is written when it fits; otherwise the destination keeps its
value and OVF is reported (41_alu_register.md R111). -/
def State.commitSigned (d : RegIdx) (r : Int) (s : State) : State :=
  if fitsSigned32 r then (s.writeReg d (trunc32 r)).continued else s.overflowed

/-- The result of an instruction that always writes its destination (R111). -/
def State.commit (d : RegIdx) (v : Word) (s : State) : State := (s.writeReg d v).continued

/-- The effective address of LW and SW: `a = s(x[rs]) + simm(imm)`, exact, a word index (44_load_store.md R145). -/
def State.effectiveAddress (rs : RegIdx) (imm : Imm16) (s : State) : Int := (s.readReg rs).toInt + simm imm

end Sys2Proof.Machine
end

