-- ==== Sys2Proof/Machine/AluImmediate.lean ====
section
/-! DEFINITION. The immediate ALU instructions (43_alu_immediate.md). All five sign-extend `imm`, the logical ones
included (R135). -/

namespace Sys2Proof.Machine

/-- ADDI (R136): signed add of `simm(imm)` with overflow detection. -/
def execAddi (rt rs : RegIdx) (imm : Imm16) (s : State) : Host.Outcome State Fault Refusal :=
  .next (s.commitSigned rt ((s.readReg rs).toInt + simm imm))

/-- ADDIU (R137): `x[rt] <- trunc32(u(x[rs]) + u(sext_32(imm)))` (decision D10; DESIGN CHOICE of the spec, unsafe:
log 10). -/
def execAddiu (rt rs : RegIdx) (imm : Imm16) (s : State) : Host.Outcome State Fault Refusal :=
  .next (s.commit rt (trunc32 ((s.readReg rs).toNat + (sext32 imm).toNat)))

/-- ANDI (R138). -/
def execAndi (rt rs : RegIdx) (imm : Imm16) (s : State) : Host.Outcome State Fault Refusal :=
  .next (s.commit rt (s.readReg rs &&& sext32 imm))

/-- ORI (R139). -/
def execOri (rt rs : RegIdx) (imm : Imm16) (s : State) : Host.Outcome State Fault Refusal :=
  .next (s.commit rt (s.readReg rs ||| sext32 imm))

/-- XORI (R140). -/
def execXori (rt rs : RegIdx) (imm : Imm16) (s : State) : Host.Outcome State Fault Refusal :=
  .next (s.commit rt (s.readReg rs ^^^ sext32 imm))

end Sys2Proof.Machine
end

