-- ==== Sys2Proof/Machine/AluRegister.lean ====
section
/-! DEFINITION. The register-to-register ALU instructions (41_alu_register.md). All sources are read before the
destination is written (R110). -/

namespace Sys2Proof.Machine

/-- ADD (R112): signed add with overflow detection. -/
def execAdd (rd rs rt : RegIdx) (s : State) : Host.Outcome State Fault Refusal :=
  .next (s.commitSigned rd ((s.readReg rs).toInt + (s.readReg rt).toInt))

/-- ADDU (R113): `x[rd] <- trunc32(u(x[rs]) + u(x[rt]))`. -/
def execAddu (rd rs rt : RegIdx) (s : State) : Host.Outcome State Fault Refusal :=
  .next (s.commit rd (trunc32 ((s.readReg rs).toNat + (s.readReg rt).toNat)))

/-- SUB (R114): signed subtract with overflow detection, `rs` minus `rt` (decision D23; DESIGN CHOICE of the spec,
unsafe: log 21). -/
def execSub (rd rs rt : RegIdx) (s : State) : Host.Outcome State Fault Refusal :=
  .next (s.commitSigned rd ((s.readReg rs).toInt - (s.readReg rt).toInt))

/-- SUBU (R115): `x[rd] <- trunc32(u(x[rs]) - u(x[rt]))` (decision D23; log 21). -/
def execSubu (rd rs rt : RegIdx) (s : State) : Host.Outcome State Fault Refusal :=
  .next (s.commit rd (trunc32 ((s.readReg rs).toNat - (s.readReg rt).toNat)))

/-- AND (R116). -/
def execAnd (rd rs rt : RegIdx) (s : State) : Host.Outcome State Fault Refusal :=
  .next (s.commit rd (s.readReg rs &&& s.readReg rt))

/-- OR (R117). -/
def execOr (rd rs rt : RegIdx) (s : State) : Host.Outcome State Fault Refusal :=
  .next (s.commit rd (s.readReg rs ||| s.readReg rt))

/-- XOR (R118). -/
def execXor (rd rs rt : RegIdx) (s : State) : Host.Outcome State Fault Refusal :=
  .next (s.commit rd (s.readReg rs ^^^ s.readReg rt))

/-- NOR (R119): the 32-bit complement of the or. -/
def execNor (rd rs rt : RegIdx) (s : State) : Host.Outcome State Fault Refusal :=
  .next (s.commit rd (~~~(s.readReg rs ||| s.readReg rt)))

end Sys2Proof.Machine
end

