-- ==== Sys2Proof/Machine/JumpBranch.lean ====
section
/-! DEFINITION. Jump and branch (42_jump_branch.md). The fetch has already made `pc` the index of the instruction plus
one (40_fetch_step.md R92). A target outside the instruction memory is no error of the jump (R128). -/

namespace Sys2Proof.Machine

/-- J (R125): `pc <- u(target)`. -/
def execJ (target : Target) (s : State) : Host.Outcome State Fault Refusal :=
  .next (s.jumpTo (jumpIndex target)).continued

/-- BEQ (R126): on equal patterns `pc <- pc + u(imm)`. -/
def execBeq (rs rt : RegIdx) (imm : Imm16) (s : State) : Host.Outcome State Fault Refusal :=
  .next (if s.readReg rs = s.readReg rt then s.jumpBy (beqOffset imm) else s).continued

/-- BNE (R127): on different patterns `pc <- pc + simm(imm)`. -/
def execBne (rs rt : RegIdx) (imm : Imm16) (s : State) : Host.Outcome State Fault Refusal :=
  .next (if s.readReg rs ≠ s.readReg rt then s.jumpBy (bneOffset imm) else s).continued

end Sys2Proof.Machine
end

