-- ==== Sys2Proof/Machine/LoadStore.lean ====
section
/-! DEFINITION. Load and store (44_load_store.md). The bounds check comes before the read and before the write, so a
failing LW or SW changes nothing beyond the fetch's increment of `pc` (R146, R147, 60_exceptions.md R152, R154). -/

namespace Sys2Proof.Machine

/-- LW (R146). -/
def execLw (rt : RegIdx) (imm : Imm16) (rs : RegIdx) (s : State) : Host.Outcome State Fault Refusal :=
  let a := s.effectiveAddress rs imm
  if dataInBounds a then .next (s.commit rt (s.readData a.toNat))
  else .next (s.raise (.dataAddressOutOfBounds a))

/-- SW (R147). -/
def execSw (rt : RegIdx) (imm : Imm16) (rs : RegIdx) (s : State) : Host.Outcome State Fault Refusal :=
  let a := s.effectiveAddress rs imm
  if dataInBounds a then .next (s.writeData a.toNat (s.readReg rt)).continued
  else .next (s.raise (.dataAddressOutOfBounds a))

end Sys2Proof.Machine
end

