-- ==== Sys2Proof/Machine/Sentinel.lean ====
section
/-! DEFINITION. The two sentinel words (40_fetch_step.md R93, R94). -/

namespace Sys2Proof.Machine

/-- HALT (R93): `run <- Halted`, outcome `HALTED`. -/
def execHalt (s : State) : Host.Outcome State Fault Refusal :=
  .next ((s.setRun .halted).report .halted false)

/-- EMPTY (R94): `run <- Empty`, outcome `EMPTY`. -/
def execEmpty (s : State) : Host.Outcome State Fault Refusal :=
  .next ((s.setRun .empty).report .empty false)

end Sys2Proof.Machine
end

