-- ==== Sys2Proof/Machine/Step.lean ====
section
/-! DEFINITION. The step transaction (40_fetch_step.md R97), and a program word placed where the next step fetches it. -/

namespace Sys2Proof.Machine

/-- A fetched word, with `pc` already incremented: decode and execute, or `raise UnknownInstruction(w)` (R95, R71). -/
def runWord (w : Word) (s : State) : Host.Outcome State Fault Refusal :=
  match decode w with
  | .ok i => exec i s
  | .error _ => .next (s.raise (.unknownInstruction w))

/-- The whole step, in the fixed order of its checks (R97, R159, decision D21; log 19). A step in Halted or Empty
changes nothing and returns the outcome of the state it is in (R90, decision D5; log 5); a step in Idle is refused
(R90, decision D6; log 6). -/
def step (s : State) : Host.Outcome State Fault Refusal :=
  match s.run with
  | .idle => .refused .stepBeforeLoad
  | .halted => .next (s.report .halted false)
  | .empty => .next (s.report .empty false)
  | .loaded =>
    match s.fetchWord with
    | none => .next s.fetchOutOfRange
    | some w => runWord w s.advancePc

/-- The state in which the very next step fetches and runs the given row word: the word stands in the instruction
memory at `pc` and the run-state is Loaded, as after a `load` by the host (70_reset_and_hazards.md R172). Where `pc` is
no index of the instruction memory it becomes 0, the entry point. Log 16 says how a program comes to run from reset. -/
def State.withFetchWord (s : State) (nbits w : Nat) : State :=
  let pc := if s.pc.toNat < Config.imemWords then s.pc else 0x00000000#32
  { s with pc := pc, imem := s.imem.write pc.toNat (BitVec.ofNat 32 (w % 2 ^ nbits)), run := .loaded }

end Sys2Proof.Machine
end

