-- ==== Sys2Proof/Machine/Transactions.lean ====
section
/-! DEFINITION. The host interface (70_reset_and_hazards.md R171): the three kinds of transaction, each atomic. -/

namespace Sys2Proof.Machine

/-- `load(words)` (R172): `pc` to 0, the instruction memory replaced by the first 256 words and zeros, run-state
Loaded; registers and data memory kept. Allowed in every run-state (decision D20; DESIGN CHOICE of the spec, safe:
log 18). No step has run since, so the outputs are cleared (10_state.md R36; log 8). -/
def State.load (words : List Word) (s : State) : State :=
  { s with
    pc := 0x00000000#32, imem := Memory.ofWords 0 (words.take Config.imemWords), run := .loaded,
    outcome := none, ovf := false }

/-- What `load` returns: the number of words dropped, `max(n - 256, 0)` (R172, decision D20; log 18). -/
def loadDropped (words : List Word) : Nat := words.length - Config.imemWords

/-- The transactions a host may issue (R171); a snapshot read names the value it asks for (R176). -/
inductive Transaction where
  | load (words : List Word)
  | step
  | readRegister (r : RegIdx)
  | readDataWord (a : Fin 1024)
  | readPc
  deriving DecidableEq, Repr

/-- What a transaction returns to the host (R171). -/
inductive Response where
  /-- `load`: the number of words dropped. -/
  | dropped (n : Nat)
  /-- `step`: the outcome and OVF (R96). -/
  | stepped (outcome : Option StepOutcome) (ovf : Bool)
  /-- A snapshot read: the current value. -/
  | value (w : Word)
  deriving DecidableEq, Repr

/-- One transaction: the state after it and the answer. -/
def transact (t : Transaction) (s : State) : Host.Outcome (State × Response) Fault Refusal :=
  match t with
  | .load words => .next (s.load words, .dropped (loadDropped words))
  | .step =>
    match step s with
    | .next s' => .next (s', .stepped s'.outcome s'.ovf)
    | .fault r => .fault r
    | .refused r => .refused r
  | .readRegister r => .next (s, .value (s.readReg r))
  | .readDataWord a => .next (s, .value (s.readData a.val))
  | .readPc => .next (s, .value s.pc)

end Sys2Proof.Machine
end

