-- ==== Sys2Proof/Safety.lean ====
section
/-! DEFINITION. What claims are stated in: the invariant of the machine, its architectural part, and the destination
register of an instruction. -/

namespace Sys2Proof.Machine

/-- Both memories are canonical and inside their address spaces (20_memory.md R48). -/
def State.memoriesWf (s : State) : Bool := s.imem.wf Config.imemWords && s.dmem.wf Config.dmemWords

/-- The values `pc` can hold (10_state.md R26): at most 2^26 - 1 (a J target), or wrapped below zero by a BNE at
index 0 or later, which leaves at least 2^32 - 32767. -/
def State.pcReachable (s : State) : Prop := s.pc.toNat < 2 ^ 26 ∨ 2 ^ 32 - 32767 ≤ s.pc.toNat

/-- OVF accompanies the outcome CONTINUED only (40_fetch_step.md R96). -/
def State.ovfOnlyContinued (s : State) : Prop := s.ovf = true → s.outcome = some .continued

/-- The run-state and what ended the run agree (40_fetch_step.md R90, R91, R93, R94): a halted core stands one past a
halt word and its last outcome is HALTED; a core in Empty stands one past an empty word or out of range and its last
outcome is EMPTY; an idle core has run no step; a loaded core's last step did not end the run. -/
def State.runAgrees (s : State) : Prop :=
  match s.run with
  | .idle => s.outcome = none
  | .loaded => s.outcome ≠ some .halted ∧ s.outcome ≠ some .empty
  | .halted => s.outcome = some .halted ∧ 1 ≤ s.pc.toNat ∧ s.pc.toNat ≤ 256 ∧
      s.imem.read (s.pc.toNat - 1) = Config.haltWord
  | .empty => s.outcome = some .empty ∧
      (256 ≤ s.pc.toNat ∨ (1 ≤ s.pc.toNat ∧ s.imem.read (s.pc.toNat - 1) = Config.emptyWord))

/-- The invariant that every transaction keeps. -/
def State.Inv (s : State) : Prop :=
  s.memoriesWf = true ∧ s.pcReachable ∧ s.ovfOnlyContinued ∧ s.runAgrees

/-- Two states have the same architectural part, the tuple of 10_state.md R35: they differ at most in the outputs of
the last step. -/
def State.sameArch (s t : State) : Prop :=
  t.regs = s.regs ∧ t.pc = s.pc ∧ t.dmem = s.dmem ∧ t.imem = s.imem ∧ t.run = s.run

/-! ## What an instruction leaves unchanged -/

/-- Every register reads as before. -/
def State.sameRegs (s t : State) : Prop := ∀ r, t.readReg r = s.readReg r

/-- Every register but `d` reads as before. -/
def State.sameRegsBut (d : RegIdx) (s t : State) : Prop := ∀ r, r ≠ d → t.readReg r = s.readReg r

/-- Every word of the data memory reads as before. -/
def State.sameData (s t : State) : Prop := ∀ a, t.readData a = s.readData a

/-- Every word of the instruction memory reads as before. -/
def State.sameProgram (s t : State) : Prop := ∀ a, t.imem.read a = s.imem.read a

/-- The frame of an instruction that writes the register `d` only: every other register, `pc`, both memories and the
run-state are as before. -/
def State.onlyReg (d : RegIdx) (s t : State) : Prop :=
  s.sameRegsBut d t ∧ t.pc = s.pc ∧ s.sameData t ∧ s.sameProgram t ∧ t.run = s.run

/-- The frame of an instruction that writes `pc` only. -/
def State.onlyPc (s t : State) : Prop := s.sameRegs t ∧ s.sameData t ∧ s.sameProgram t ∧ t.run = s.run

/-- The frame of an instruction that writes nothing but the outputs of the step. -/
def State.nothing (s t : State) : Prop := s.onlyPc t ∧ t.pc = s.pc

/-- The result a step returned: outcome and OVF (40_fetch_step.md R96). -/
def State.returned (o : StepOutcome) (v : Bool) (t : State) : Prop := t.outcome = some o ∧ t.ovf = v

/-- The next step reads the word `w` from the instruction memory (40_fetch_step.md R92). -/
def State.fetches (s : State) (w : Word) : Prop :=
  s.run = .loaded ∧ s.pc.toNat ≤ 255 ∧ s.imem.read s.pc.toNat = w

end Sys2Proof.Machine

namespace Sys2Proof

/-- The register an instruction may write, by the table of 10_state.md R21. -/
def Instr.destination : Instr → Option RegIdx
  | .add rd _ _ | .addu rd _ _ | .sub rd _ _ | .subu rd _ _ => some rd
  | .and rd _ _ | .or rd _ _ | .xor rd _ _ | .nor rd _ _ => some rd
  | .addi rt _ _ | .addiu rt _ _ | .andi rt _ _ | .ori rt _ _ | .xori rt _ _ => some rt
  | .lw rt _ _ => some rt
  | .sw _ _ _ | .beq _ _ _ | .bne _ _ _ | .j _ | .halt | .empty => none

/-- The registers an instruction reads, by the table of 10_state.md R21. -/
def Instr.sources : Instr → List RegIdx
  | .add _ rs rt | .addu _ rs rt | .sub _ rs rt | .subu _ rs rt => [rs, rt]
  | .and _ rs rt | .or _ rs rt | .xor _ rs rt | .nor _ rs rt => [rs, rt]
  | .addi _ rs _ | .addiu _ rs _ | .andi _ rs _ | .ori _ rs _ | .xori _ rs _ => [rs]
  | .lw _ _ rs => [rs]
  | .sw rt _ rs => [rs, rt]
  | .beq rs rt _ | .bne rs rt _ => [rs, rt]
  | .j _ | .halt | .empty => []

end Sys2Proof
end

