-- ==== Sys2Proof/Certificates/Slice0/Obligations.lean ====
section
/-! DEFINITION. What is to be proved about the model. Each statement's docstring names the rule of spec/ it formalises, and
the decision (D<n> of 92_eei_decisions.md, log <n>) where it rests on one. Statements about `exec` speak of the state
after the fetch, in which `pc` is already the index of the instruction plus one (40_fetch_step.md R92). -/

open Sys2Proof Sys2Proof.Machine

/-! ## Encoding -/

/-- Words written out from 95_test_vectors.md S1 and part 2 decode to the instruction they stand for, one or more per
family (30_encoding.md R61 to R66, R69). That the word 0x00221FE0, with bits 10 to 6 all ones, is an ADD is the spec's
decision D14 (log 14); that the word 0x0BFFFFFF is a J to the 26-bit target 0x3FFFFFF is its decision D13 (log 13). -/
def Obligations.SampleWordsDecode : Prop :=
  decode 0x00221820#32 = .ok (.add 3 1 2) ∧ decode 0x03DDF827#32 = .ok (.nor 31 30 29) ∧
  decode 0x00221FE0#32 = .ok (.add 3 1 2) ∧
  decode 0x0BFFFFFF#32 = .ok (.j 0x3FFFFFF#26) ∧ decode 0x1064FFFC#32 = .ok (.beq 3 4 0xFFFC#16) ∧
  decode 0x2401FFF8#32 = .ok (.addiu 1 0 0xFFF8#16) ∧ decode 0x34438000#32 = .ok (.ori 3 2 0x8000#16) ∧
  decode 0x8C240000#32 = .ok (.lw 4 0x0000#16 1) ∧ decode 0xAC230000#32 = .ok (.sw 3 0x0000#16 1) ∧
  decode 0xFFFFFFFF#32 = .ok .halt ∧ decode 0x00000000#32 = .ok .empty ∧
  decode 0x00000040#32 = .error (.unknownFunction 0x00#6) ∧ decode 0xFFFFFFFE#32 = .error (.unknownOpcode 0x3F#6)

/-- 30_encoding.md R74: encoding and decoding are inverse on the table, and the fields a word is built from are
recovered from it, for every format and every field value within its width. -/
def Obligations.DecodeEncodeRoundTrip : Prop :=
  (∀ i : Instr, i.format.wellFormed = true → decode (encode i) = .ok i) ∧
  (∀ op rs rt imm : Nat, (WordFormat.iFormat op rs rt imm).wellFormed = true →
    let w : Word := BitVec.ofNat 32 (op <<< 26 ||| rs <<< 21 ||| rt <<< 16 ||| imm)
    (opField w).toNat = op ∧ (rsField w).val = rs ∧ (rtField w).val = rt ∧ (immField w).toNat = imm) ∧
  (∀ rs rt rd funct : Nat, (WordFormat.rFormat rs rt rd funct).wellFormed = true →
    let w : Word := BitVec.ofNat 32 (rs <<< 21 ||| rt <<< 16 ||| rd <<< 11 ||| funct)
    opField w = 0x00#6 ∧ (rsField w).val = rs ∧ (rtField w).val = rt ∧ (rdField w).val = rd ∧
    (functField w).toNat = funct) ∧
  (∀ target : Nat, (WordFormat.jFormat target).wellFormed = true →
    let w : Word := BitVec.ofNat 32 (0x02 <<< 26 ||| target)
    opField w = 0x02#6 ∧ (targetField w).toNat = target)

/-- 30_encoding.md R66: a word is the instruction of a row when `w & mask = match`, with its operands in the bits the
pattern names; no two rows match the same word, and no row of R66 matches a sentinel (the last two rows of
`opcodeTable`). -/
def Obligations.EveryTableRowDecodesItsWords : Prop :=
  (∀ w : Word,
    let rs : RegIdx := ⟨(w.extractLsb' 21 5).toNat, (w.extractLsb' 21 5).isLt⟩
    let rt : RegIdx := ⟨(w.extractLsb' 16 5).toNat, (w.extractLsb' 16 5).isLt⟩
    let rd : RegIdx := ⟨(w.extractLsb' 11 5).toNat, (w.extractLsb' 11 5).isLt⟩
    let imm : Imm16 := w.extractLsb' 0 16
    (w &&& 0xFC00003F#32 = 0x00000020#32 → decode w = .ok (.add rd rs rt)) ∧
    (w &&& 0xFC00003F#32 = 0x00000021#32 → decode w = .ok (.addu rd rs rt)) ∧
    (w &&& 0xFC00003F#32 = 0x00000022#32 → decode w = .ok (.sub rd rs rt)) ∧
    (w &&& 0xFC00003F#32 = 0x00000023#32 → decode w = .ok (.subu rd rs rt)) ∧
    (w &&& 0xFC00003F#32 = 0x00000024#32 → decode w = .ok (.and rd rs rt)) ∧
    (w &&& 0xFC00003F#32 = 0x00000025#32 → decode w = .ok (.or rd rs rt)) ∧
    (w &&& 0xFC00003F#32 = 0x00000026#32 → decode w = .ok (.xor rd rs rt)) ∧
    (w &&& 0xFC00003F#32 = 0x00000027#32 → decode w = .ok (.nor rd rs rt)) ∧
    (w &&& 0xFC000000#32 = 0x08000000#32 → decode w = .ok (.j (w.extractLsb' 0 26))) ∧
    (w &&& 0xFC000000#32 = 0x10000000#32 → decode w = .ok (.beq rs rt imm)) ∧
    (w &&& 0xFC000000#32 = 0x14000000#32 → decode w = .ok (.bne rs rt imm)) ∧
    (w &&& 0xFC000000#32 = 0x20000000#32 → decode w = .ok (.addi rt rs imm)) ∧
    (w &&& 0xFC000000#32 = 0x24000000#32 → decode w = .ok (.addiu rt rs imm)) ∧
    (w &&& 0xFC000000#32 = 0x30000000#32 → decode w = .ok (.andi rt rs imm)) ∧
    (w &&& 0xFC000000#32 = 0x34000000#32 → decode w = .ok (.ori rt rs imm)) ∧
    (w &&& 0xFC000000#32 = 0x38000000#32 → decode w = .ok (.xori rt rs imm)) ∧
    (w &&& 0xFC000000#32 = 0x8C000000#32 → decode w = .ok (.lw rt imm rs)) ∧
    (w &&& 0xFC000000#32 = 0xAC000000#32 → decode w = .ok (.sw rt imm rs))) ∧
  opcodeTable.Pairwise (fun a b => ∀ w : Word, ¬ (a.hits w = true ∧ b.hits w = true))

/-- 30_encoding.md R71, with the step's result by 60_exceptions.md R151 and R154 (decisions D7 and D15; log 7, log 15): the
decoder rejects exactly the words that hit no row of the table (the two sentinel words are its last rows), and a step
that fetches one returns `ERROR(UnknownInstruction w)` with `pc` incremented and nothing else changed. -/
def Obligations.UnknownWordsAreThoseOutsideTheTable : Prop :=
  ∀ w : Word,
    ((∃ e, decode w = .error e) ↔ ∀ row ∈ opcodeTable, row.hits w = false) ∧
    ((∀ row ∈ opcodeTable, row.hits w = false) → ∀ s : State, s.fetches w →
      ∃ t, step s = .next t ∧ t.pc = s.pc + 1#32 ∧ s.onlyPc t ∧
        t.returned (.error (.unknownInstruction w)) false)

/-- The other direction of the round trip (30_encoding.md R69, decision D14; log 14): the encoder gives back every word
that decodes, but for bits 10 to 6 of an R-format word, which it makes zero. -/
def Obligations.EncodeRecoversTheWord : Prop :=
  ∀ (w : Word) (i : Instr), decode w = .ok i →
    (w.extractLsb' 26 6 = 0x00#6 → encode i = w &&& 0xFFFFF83F#32) ∧
    (w.extractLsb' 26 6 ≠ 0x00#6 → encode i = w)

/-- 30_encoding.md R69 (decision D14; log 14): two R-format words that differ only in bits 10 to 6, neither of them the
zero word, decode alike. -/
def Obligations.IgnoredBitsDoNotMatter : Prop :=
  ∀ v w : Word, v &&& 0xFFFFF83F#32 = w &&& 0xFFFFF83F#32 → v.extractLsb' 26 6 = 0x00#6 →
    v ≠ 0x00000000#32 → w ≠ 0x00000000#32 → decode v = decode w

/-! ## The step -/

/-- 40_fetch_step.md R92, R95, R97: a step that fetches a word which decodes to the instruction `i` is `exec i` on the
state with `pc` incremented. -/
def Obligations.StepRunsTheDecodedInstruction : Prop :=
  ∀ (s : State) (w : Word) (i : Instr), s.fetches w → decode w = .ok i →
    step s = exec i { s with pc := s.pc + 1#32 }

/-- A step always ends in a next state, except in run-state Idle, where it is refused (10_state.md R31, 40_fetch_step.md
R90, decision D6; log 6). No error ends the machine (60_exceptions.md R155). -/
def Obligations.StepAnswersUnlessIdle : Prop :=
  ∀ s : State, (s.run = .idle → step s = .refused .stepBeforeLoad) ∧ (s.run ≠ .idle → ∃ t, step s = .next t)

/-- 40_fetch_step.md R91 (decision D4; log 4): a fetch with `pc > 255` ends the run in Empty with outcome EMPTY and
leaves `pc` as it is. -/
def Obligations.FetchOutOfRangeEndsTheRun : Prop :=
  ∀ s : State, s.run = .loaded → 255 < s.pc.toNat →
    ∃ t, step s = .next t ∧ t.run = .empty ∧ t.returned .empty false ∧ t.pc = s.pc ∧
      s.sameRegs t ∧ s.sameData t ∧ s.sameProgram t

/-- 40_fetch_step.md R90 (the returned outcome is decision D5; log 5): however many steps follow, a halted or empty core
keeps its architectural state, and each step returns the outcome of the state it is in. -/
def Obligations.HaltedAndEmptyAreTerminal : Prop :=
  ∀ (k : Nat) (s : State),
    (s.run = .halted → ∃ t, Host.Core.run core k s = .next t ∧ s.sameArch t ∧ (0 < k → t.returned .halted false)) ∧
    (s.run = .empty → ∃ t, Host.Core.run core k s = .next t ∧ s.sameArch t ∧ (0 < k → t.returned .empty false))

/-- 10_state.md R31, the whole table of run-state transitions of a step (decisions D5 and D7; log 5, log 7). -/
def Obligations.RunStateTransitions : Prop :=
  ∀ s t : State, step s = .next t →
    (s.run = .halted → t.run = .halted ∧ t.returned .halted false) ∧
    (s.run = .empty → t.run = .empty ∧ t.returned .empty false) ∧
    (s.run = .loaded → 255 < s.pc.toNat → t.run = .empty ∧ t.returned .empty false) ∧
    (s.fetches 0xFFFFFFFF#32 → t.run = .halted ∧ t.returned .halted false) ∧
    (s.fetches 0x00000000#32 → t.run = .empty ∧ t.returned .empty false) ∧
    (∀ w, s.fetches w → w ≠ 0xFFFFFFFF#32 → w ≠ 0x00000000#32 →
      t.run = .loaded ∧ (t.outcome = some .continued ∨ ∃ e, t.returned (.error e) false))

/-- 40_fetch_step.md R93 and R94: a fetched halt word ends the run in Halted, a fetched zero word in Empty, with `pc` one
past it and nothing else changed, and all later steps leave that state and return the same outcome (the last by
decision D5; log 5). -/
def Obligations.SentinelWordsEndTheRunForGood : Prop :=
  ∀ s : State,
    (s.fetches 0xFFFFFFFF#32 → ∃ t, step s = .next t ∧ t.run = .halted ∧ t.returned .halted false ∧
      t.pc = s.pc + 1#32 ∧ s.sameRegs t ∧ s.sameData t ∧ s.sameProgram t ∧
      ∀ k, Host.Core.run core k t = .next t) ∧
    (s.fetches 0x00000000#32 → ∃ t, step s = .next t ∧ t.run = .empty ∧ t.returned .empty false ∧
      t.pc = s.pc + 1#32 ∧ s.sameRegs t ∧ s.sameData t ∧ s.sameProgram t ∧
      ∀ k, Host.Core.run core k t = .next t)

/-- 40_fetch_step.md R93, R94: HALT and EMPTY, on every state, set the run-state and the outcome and change nothing
else. -/
def Obligations.SentinelsSetRunStateOnly : Prop :=
  ∀ s : State,
    (∃ t, exec .halt s = .next t ∧ t.run = .halted ∧ t.returned .halted false ∧
      s.sameRegs t ∧ t.pc = s.pc ∧ s.sameData t ∧ s.sameProgram t) ∧
    (∃ t, exec .empty s = .next t ∧ t.run = .empty ∧ t.returned .empty false ∧
      s.sameRegs t ∧ t.pc = s.pc ∧ s.sameData t ∧ s.sameProgram t)

/-! ## Register-to-register ALU -/

/-- 41_alu_register.md R112: ADD writes the exact signed sum when it fits; otherwise `x[rd]` keeps its value and OVF is
reported. Nothing else changes. -/
def Obligations.AddWritesSumOrReportsOverflow : Prop :=
  ∀ (rd rs rt : RegIdx) (s : State),
    opField (encode (.add rd rs rt)) = 0x00#6 ∧ functField (encode (.add rd rs rt)) = 0x20#6 ∧
    ∃ t, exec (.add rd rs rt) s = .next t ∧ s.onlyReg rd t ∧
      (let r : Int := (s.readReg rs).toInt + (s.readReg rt).toInt
       if -2 ^ 31 ≤ r ∧ r ≤ 2 ^ 31 - 1 then (t.readReg rd).toInt = r ∧ t.returned .continued false
       else t.readReg rd = s.readReg rd ∧ t.returned .continued true)

/-- 41_alu_register.md R113: ADDU writes the sum modulo 2^32 and never reports. -/
def Obligations.AdduWritesWrappedSum : Prop :=
  ∀ (rd rs rt : RegIdx) (s : State),
    opField (encode (.addu rd rs rt)) = 0x00#6 ∧ functField (encode (.addu rd rs rt)) = 0x21#6 ∧
    ∃ t, exec (.addu rd rs rt) s = .next t ∧ s.onlyReg rd t ∧ t.returned .continued false ∧
      (t.readReg rd).toNat = ((s.readReg rs).toNat + (s.readReg rt).toNat) % 2 ^ 32

/-- 41_alu_register.md R114: SUB writes the exact signed difference `rs` minus `rt` when it fits; otherwise `x[rd]` keeps
its value and OVF is reported. The order of the operands is decision D23 (log 21). -/
def Obligations.SubWritesDifferenceOrReportsOverflow : Prop :=
  ∀ (rd rs rt : RegIdx) (s : State), ∃ t, exec (.sub rd rs rt) s = .next t ∧ s.onlyReg rd t ∧
    (let r : Int := (s.readReg rs).toInt - (s.readReg rt).toInt
     if -2 ^ 31 ≤ r ∧ r ≤ 2 ^ 31 - 1 then (t.readReg rd).toInt = r ∧ t.returned .continued false
     else t.readReg rd = s.readReg rd ∧ t.returned .continued true)

/-- 41_alu_register.md R115: SUBU writes the difference `rs` minus `rt` modulo 2^32 and never reports. The order of the
operands is decision D23 (log 21). -/
def Obligations.SubuWritesWrappedDifference : Prop :=
  ∀ (rd rs rt : RegIdx) (s : State), ∃ t, exec (.subu rd rs rt) s = .next t ∧ s.onlyReg rd t ∧
    t.returned .continued false ∧
    ((t.readReg rd).toNat : Int) = ((s.readReg rs).toNat - (s.readReg rt).toNat : Int) % 2 ^ 32

/-- 41_alu_register.md R116 to R119: AND, OR, XOR and NOR write their bitwise result. -/
def Obligations.RegisterLogicWritesBitwiseResult : Prop :=
  ∀ (rd rs rt : RegIdx) (s : State),
    (opField (encode (.and rd rs rt)) = 0x00#6 ∧ functField (encode (.and rd rs rt)) = 0x24#6 ∧
      ∃ t, exec (.and rd rs rt) s = .next t ∧ s.onlyReg rd t ∧ t.returned .continued false ∧
        t.readReg rd = s.readReg rs &&& s.readReg rt) ∧
    (opField (encode (.or rd rs rt)) = 0x00#6 ∧ functField (encode (.or rd rs rt)) = 0x25#6 ∧
      ∃ t, exec (.or rd rs rt) s = .next t ∧ s.onlyReg rd t ∧ t.returned .continued false ∧
        t.readReg rd = s.readReg rs ||| s.readReg rt) ∧
    (opField (encode (.xor rd rs rt)) = 0x00#6 ∧ functField (encode (.xor rd rs rt)) = 0x26#6 ∧
      ∃ t, exec (.xor rd rs rt) s = .next t ∧ s.onlyReg rd t ∧ t.returned .continued false ∧
        t.readReg rd = s.readReg rs ^^^ s.readReg rt) ∧
    (opField (encode (.nor rd rs rt)) = 0x00#6 ∧ functField (encode (.nor rd rs rt)) = 0x27#6 ∧
      ∃ t, exec (.nor rd rs rt) s = .next t ∧ s.onlyReg rd t ∧ t.returned .continued false ∧
        t.readReg rd = ~~~(s.readReg rs ||| s.readReg rt) ∧
        (t.readReg rd).toNat = 2 ^ 32 - 1 - (s.readReg rs ||| s.readReg rt).toNat)

/-! ## Immediate ALU -/

/-- 43_alu_immediate.md R136: ADDI writes the exact sum with the sign-extended immediate when it fits; otherwise `x[rt]`
keeps its value and OVF is reported. -/
def Obligations.AddiWritesSumOrReportsOverflow : Prop :=
  ∀ (rt rs : RegIdx) (imm : Imm16) (s : State),
    opField (encode (.addi rt rs imm)) = 0x08#6 ∧
    ∃ t, exec (.addi rt rs imm) s = .next t ∧ s.onlyReg rt t ∧
      (let r : Int := (s.readReg rs).toInt + imm.toInt
       if -2 ^ 31 ≤ r ∧ r ≤ 2 ^ 31 - 1 then (t.readReg rt).toInt = r ∧ t.returned .continued false
       else t.readReg rt = s.readReg rt ∧ t.returned .continued true)

/-- 43_alu_immediate.md R137: ADDIU always writes the sum with the sign-extended immediate; that the sum is taken modulo
2^32 is decision D10 (log 10). -/
def Obligations.AddiuWritesWrappedSum : Prop :=
  ∀ (rt rs : RegIdx) (imm : Imm16) (s : State), ∃ t, exec (.addiu rt rs imm) s = .next t ∧ s.onlyReg rt t ∧
    t.returned .continued false ∧ t.readReg rt = s.readReg rs + imm.signExtend 32

/-- 43_alu_immediate.md R138 to R140: ANDI, ORI and XORI write the bitwise result against the sign-extended immediate. -/
def Obligations.ImmediateLogicWritesBitwiseResult : Prop :=
  ∀ (rt rs : RegIdx) (imm : Imm16) (s : State),
    (opField (encode (.andi rt rs imm)) = 0x0C#6 ∧
      ∃ t, exec (.andi rt rs imm) s = .next t ∧ s.onlyReg rt t ∧ t.returned .continued false ∧
        t.readReg rt = s.readReg rs &&& imm.signExtend 32) ∧
    (opField (encode (.ori rt rs imm)) = 0x0D#6 ∧
      ∃ t, exec (.ori rt rs imm) s = .next t ∧ s.onlyReg rt t ∧ t.returned .continued false ∧
        t.readReg rt = s.readReg rs ||| imm.signExtend 32) ∧
    (opField (encode (.xori rt rs imm)) = 0x0E#6 ∧
      ∃ t, exec (.xori rt rs imm) s = .next t ∧ s.onlyReg rt t ∧ t.returned .continued false ∧
        t.readReg rt = s.readReg rs ^^^ imm.signExtend 32)

/-- 43_alu_immediate.md R141: from a zero register ADDI, ADDIU, ORI and XORI make exactly the sign-extended immediate,
whose patterns are `0x00000000` to `0x00007FFF` and `0xFFFF8000` to `0xFFFFFFFF`; ANDI keeps the upper half of the
source when bit 15 of the immediate is set and clears it when not. -/
def Obligations.ConstantsFromTheImmediate : Prop :=
  (∀ (rt rs : RegIdx) (imm : Imm16) (s : State), s.readReg rs = 0x00000000#32 →
    ∀ i ∈ [Instr.addi rt rs imm, Instr.addiu rt rs imm, Instr.ori rt rs imm, Instr.xori rt rs imm],
      ∃ t, exec i s = .next t ∧ (t.readReg rt).toInt = imm.toInt) ∧
  (∀ v : Word, (∃ imm : Imm16, v.toInt = imm.toInt) ↔ (v.toNat ≤ 0x7FFF ∨ 0xFFFF8000 ≤ v.toNat)) ∧
  (∀ (rt rs : RegIdx) (imm : Imm16) (s : State), ∃ t, exec (.andi rt rs imm) s = .next t ∧
    (t.readReg rt).extractLsb' 16 16 = if imm.msb then (s.readReg rs).extractLsb' 16 16 else 0x0000#16)

/-! ## Jump and branch -/

/-- 42_jump_branch.md R125: J writes its 26-bit target to `pc`, and the old `pc` plays no part. That the target is the
low 26 bits of the word is decision D13 (log 13). -/
def Obligations.JumpSetsPcToTarget : Prop :=
  ∀ (target : Target) (s : State),
    opField (encode (.j target)) = 0x02#6 ∧ (encode (.j target)).extractLsb' 0 26 = target ∧
    ∃ t, exec (.j target) s = .next t ∧ s.onlyPc t ∧ t.returned .continued false ∧ t.pc.toNat = target.toNat

/-- 42_jump_branch.md R126: BEQ adds the zero-extended field to the incremented `pc` on equal patterns (decision D12;
log 12) and leaves `pc` otherwise. -/
def Obligations.BeqAddsUnsignedOffset : Prop :=
  ∀ (rs rt : RegIdx) (imm : Imm16) (s : State), ∃ t, exec (.beq rs rt imm) s = .next t ∧ s.onlyPc t ∧
    t.returned .continued false ∧
    t.pc = if s.readReg rs = s.readReg rt then s.pc + imm.setWidth 32 else s.pc

/-- 42_jump_branch.md R127: BNE adds the sign-extended field to the incremented `pc`, modulo 2^32, on different patterns
and leaves `pc` otherwise. -/
def Obligations.BneAddsSignedOffset : Prop :=
  ∀ (rs rt : RegIdx) (imm : Imm16) (s : State), opField (encode (.bne rs rt imm)) = 0x05#6 ∧
    ∃ t, exec (.bne rs rt imm) s = .next t ∧ s.onlyPc t ∧ t.returned .continued false ∧
      t.pc = if s.readReg rs ≠ s.readReg rt then s.pc + imm.signExtend 32 else s.pc

/-- 42_jump_branch.md R129: where a taken branch at index `C` lands. BNE: on the index `T` for which the signed offset is
`T - C - 1`, in general at `C + 1 + simm(imm)` modulo 2^32. BEQ: at `C + 1 + u(imm)`, which is beyond `C`; with bit 15 of
the field set it is out of range and the next step returns EMPTY (decisions D3, D4, D12; log 3, log 4, log 12). -/
def Obligations.TakenBranchLanding : Prop :=
  ∀ (s : State) (w : Word) (rs rt : RegIdx) (imm : Imm16), s.fetches w →
    (decode w = .ok (.bne rs rt imm) → s.readReg rs ≠ s.readReg rt →
      ∃ t, step s = .next t ∧ (t.pc.toNat : Int) = (s.pc.toNat + 1 + imm.toInt) % 2 ^ 32 ∧
        ∀ target : Nat, (target : Int) - s.pc.toNat - 1 = imm.toInt → t.pc.toNat = target) ∧
    (decode w = .ok (.beq rs rt imm) → s.readReg rs = s.readReg rt →
      ∃ t, step s = .next t ∧ t.pc.toNat = s.pc.toNat + 1 + imm.toNat ∧ s.pc.toNat < t.pc.toNat ∧
        (2 ^ 15 ≤ imm.toNat → 255 < t.pc.toNat ∧ ∃ u, step t = .next u ∧ u.pc = t.pc ∧ u.returned .empty false))

/-- 42_jump_branch.md R128, 10_state.md R25: a step that reads a word leaves `pc` one further unless the word is a J, a
BEQ or a BNE. -/
def Obligations.OnlyJumpsAndBranchesMovePc : Prop :=
  ∀ (s t : State) (w : Word), s.fetches w → step s = .next t → t.pc ≠ s.pc + 1#32 →
    ∃ i, decode w = .ok i ∧ i.mnemonic ∈ ["J", "BEQ", "BNE"]

/-- A J to its own index runs for ever (42_jump_branch.md R125, 40_fetch_step.md R98): after any number of steps the
architectural state is what it was. That the target is the low 26 bits of the word is decision D13 (log 13). -/
def Obligations.SelfJumpRunsForever : Prop :=
  ∀ (k : Nat) (s : State) (target : Target), s.fetches (encode (.j target)) → target.toNat = s.pc.toNat →
    ∃ t, Host.Core.run core k s = .next t ∧ s.sameArch t ∧ (0 < k → t.returned .continued false)

/-! ## Load and store -/

/-- 44_load_store.md, LW: with the exact address `a = s(x[rs]) + simm(imm)` in 0 to 1023, `x[rt]` becomes the data word at
`a`; otherwise the step ends with `ERROR(DataAddressOutOfBounds a)` and changes nothing. That a negative address is out
of bounds is decision D11, that the error carries `a` is D15, that `pc` stays incremented and the run goes on is D7
(log 11, log 15, log 7). -/
def Obligations.LwLoadsInBoundsOrRaises : Prop :=
  ∀ (rt : RegIdx) (imm : Imm16) (rs : RegIdx) (s : State), ∃ t, exec (.lw rt imm rs) s = .next t ∧
    (let a : Int := (s.readReg rs).toInt + imm.toInt
     if 0 ≤ a ∧ a ≤ 1023 then
       t.readReg rt = s.dmem.read a.toNat ∧ s.onlyReg rt t ∧ t.returned .continued false
     else s.nothing t ∧ t.returned (.error (.dataAddressOutOfBounds a)) false)

/-- 44_load_store.md, SW: with the exact address `a = s(x[rs]) + simm(imm)` in 0 to 1023, the data word at `a` becomes
`x[rt]` and every other word reads as before; otherwise the step ends with `ERROR(DataAddressOutOfBounds a)` and changes
nothing (decisions D7, D11, D15; log 7, log 11, log 15). -/
def Obligations.SwStoresInBoundsOrRaises : Prop :=
  ∀ (rt : RegIdx) (imm : Imm16) (rs : RegIdx) (s : State), ∃ t, exec (.sw rt imm rs) s = .next t ∧
    (let a : Int := (s.readReg rs).toInt + imm.toInt
     if 0 ≤ a ∧ a ≤ 1023 then
       t.dmem.read a.toNat = s.readReg rt ∧ (∀ b : Nat, (b : Int) ≠ a → t.dmem.read b = s.dmem.read b) ∧
       s.sameRegs t ∧ t.pc = s.pc ∧ s.sameProgram t ∧ t.run = s.run ∧ t.returned .continued false
     else s.nothing t ∧ t.returned (.error (.dataAddressOutOfBounds a)) false)

/-- 44_load_store.md R148: an SW followed by an LW of the same address returns the stored pattern when the address is in
bounds; otherwise both raise and the loaded register is unchanged. The base of the LW may be another register. That a
negative address is out of bounds is decision D11 (log 11), that the error carries the address is D15 (log 15;
60_exceptions.md R152), that the run goes on after the SW's error, so that the LW runs at all, is D7 (log 7). -/
def Obligations.StoreThenLoadReturnsTheValue : Prop :=
  ∀ (s : State) (r1 r2 b1 b2 : RegIdx) (i1 i2 : Imm16),
    (s.readReg b1).toInt + i1.toInt = (s.readReg b2).toInt + i2.toInt →
    ∃ t u, exec (.sw r1 i1 b1) s = .next t ∧ exec (.lw r2 i2 b2) t = .next u ∧
      (let a : Int := (s.readReg b1).toInt + i1.toInt
       if 0 ≤ a ∧ a ≤ 1023 then
         t.returned .continued false ∧ u.readReg r2 = s.readReg r1 ∧ u.returned .continued false
       else
         t.returned (.error (.dataAddressOutOfBounds a)) false ∧ u.readReg r2 = s.readReg r2 ∧
         u.returned (.error (.dataAddressOutOfBounds a)) false)

/-- 20_memory.md R44, its second form: the bounds check on the exact sum is the test that the 32-bit sum is at most
1023. That the check turns a negative address away is decision D11 (log 11). -/
def Obligations.BoundsCheckOnTheWrappedSum : Prop :=
  ∀ (base : Word) (imm : Imm16),
    dataInBounds (base.toInt + simm imm) = true ↔ (base + imm.signExtend 32).toNat ≤ 1023

/-- Two memories in canonical form that read alike at every index of their space are the same data (the model's own
form of a memory; log 17, log 22). -/
def Obligations.CanonicalMemoriesThatReadAlikeAreEqual : Prop :=
  ∀ (size : Nat) (m n : Memory), m.wf size = true → n.wf size = true →
    (∀ a, a < size → m.read a = n.read a) → m = n

/-! ## The whole machine -/

/-- 41_alu_register.md R120: the overflow tests in bits are the range tests on the exact results, and without overflow
the 32-bit result is the pattern of the exact one. -/
def Obligations.OverflowTestInBits : Prop :=
  ∀ a b : Word,
    (addOverflowBits a b = true ↔ fitsSigned32 (a.toInt + b.toInt) = false) ∧
    (subOverflowBits a b = true ↔ fitsSigned32 (a.toInt - b.toInt) = false) ∧
    (addOverflowBits a b = false → (a + b).toInt = a.toInt + b.toInt) ∧
    (subOverflowBits a b = false → (a - b).toInt = a.toInt - b.toInt)

/-- 10_state.md R28, 40_fetch_step.md R96, 60_exceptions.md R153 (the per-step form of the report is decision D8;
log 8): OVF is true only after a step that executed ADD, SUB or ADDI, with outcome CONTINUED, and then no register and
no memory word changed. -/
def Obligations.OverflowIsReportedOnlyByAddSubAddi : Prop :=
  ∀ s t : State, step s = .next t → t.ovf = true →
    t.outcome = some .continued ∧ s.onlyPc t ∧ t.pc = s.pc + 1#32 ∧
    ∃ w i, s.fetches w ∧ decode w = .ok i ∧ i.mnemonic ∈ ["ADD", "SUB", "ADDI"]

/-- 60_exceptions.md R154, R155 (decisions D7 and D15; log 7, log 15): a step that returns an error changes nothing but
`pc`, which is incremented, and the outputs; it happens only to a word outside the table, which the error carries, or
to an LW or SW whose address, which the error carries, is outside 0 to 1023. -/
def Obligations.ErrorsArePrecise : Prop :=
  ∀ (s t : State) (e : StepError), step s = .next t → t.outcome = some (.error e) →
    t = { s with pc := s.pc + 1#32, outcome := some (.error e), ovf := false } ∧
    ∃ w, s.fetches w ∧
      ((e = .unknownInstruction w ∧ ∃ d, decode w = .error d) ∨
       (∃ rt imm rs, (decode w = .ok (.lw rt imm rs) ∨ decode w = .ok (.sw rt imm rs)) ∧
          e = .dataAddressOutOfBounds ((s.readReg rs).toInt + imm.toInt) ∧
          ¬ (0 ≤ (s.readReg rs).toInt + imm.toInt ∧ (s.readReg rs).toInt + imm.toInt ≤ 1023)))

/-- 10_state.md R21, R32, R33, 20_memory.md R52, conflict C8: no step changes the instruction memory; a data word changes
only at the address of an SW in bounds; a register changes only as the destination of the instruction executed. -/
def Obligations.StepChangesOnlyWhatTheInstructionNames : Prop :=
  ∀ s t : State, step s = .next t →
    t.imem = s.imem ∧
    (∀ a : Nat, t.readData a ≠ s.readData a → ∃ w rt imm rs, s.fetches w ∧ decode w = .ok (.sw rt imm rs) ∧
      (a : Int) = (s.readReg rs).toInt + imm.toInt ∧ a ≤ 1023) ∧
    (∀ r : RegIdx, t.readReg r ≠ s.readReg r → ∃ w i, s.fetches w ∧ decode w = .ok i ∧ i.destination = some r)

/-- 20_memory.md R50 (with R33, R43): over any number of steps the instruction memory is as it was, and a data word has
changed only if one of the steps was an SW to its index; so between stores every LW of an index reads the same value. -/
def Obligations.DataWordKeepsItsValueUntilStored : Prop :=
  ∀ (k : Nat) (s t : State), Host.Core.run core k s = .next t →
    t.imem = s.imem ∧
    ∀ a : Nat, t.readData a ≠ s.readData a →
      ∃ (j : Nat) (u : State) (w : Word) (rt : RegIdx) (imm : Imm16) (rs : RegIdx), j < k ∧
        Host.Core.run core j s = .next u ∧ u.fetches w ∧ decode w = .ok (.sw rt imm rs) ∧
        (a : Int) = (u.readReg rs).toInt + imm.toInt ∧ a ≤ 1023

/-- 10_state.md R21, the "read" column: a register that an instruction neither reads nor writes plays no part in it;
changing that register before is the same as changing it after. -/
def Obligations.UnnamedRegistersPlayNoPart : Prop :=
  ∀ (i : Instr) (s t : State) (q : RegIdx) (v : Word), q ∉ i.sources → i.destination ≠ some q →
    exec i s = .next t → exec i (s.writeReg q v) = .next (t.writeReg q v)

/-- 10_state.md R28, R35, 60_exceptions.md R156: no step reads the outputs of an earlier one, so the two fields that
hold them are no hidden state (the fields are the model's own; log 8). -/
def Obligations.OutputsAreNeverRead : Prop :=
  ∀ (s : State) (o : Option StepOutcome) (v : Bool), step { s with outcome := o, ovf := v } = step s

/-! ## Power-on, load, the host interface and the invariant -/

/-- 10_state.md R36, 70_reset_and_hazards.md R170: the state after power-on (the zeros are decision D2; log 2). -/
def Obligations.ResetIsThePowerOnState : Prop :=
  (∀ r : RegIdx, State.reset.readReg r = 0x00000000#32) ∧ State.reset.pc = 0x00000000#32 ∧
  (∀ a, State.reset.readData a = 0x00000000#32) ∧ (∀ a, State.reset.imem.read a = 0x00000000#32) ∧
  State.reset.run = .idle ∧ State.reset.ovf = false ∧ step State.reset = .refused .stepBeforeLoad

/-- 70_reset_and_hazards.md R172: `load` sets `pc` to 0, installs the first 256 words and zeros after them, ends in
Loaded and keeps registers and data memory; it reports how many words it dropped (that it does so by a count and is
allowed in every run-state is decision D20; log 18). -/
def Obligations.LoadInstallsTheProgram : Prop :=
  ∀ (words : List Word) (s : State),
    (s.load words).pc = 0x00000000#32 ∧ (s.load words).run = .loaded ∧ (s.load words).ovf = false ∧
    (∀ k, k < 256 → (s.load words).imem.read k = words.getD k 0x00000000#32) ∧
    s.sameRegs (s.load words) ∧ s.sameData (s.load words) ∧
    loadDropped words + min words.length 256 = words.length

/-- 70_reset_and_hazards.md R172, R173: the first step after a `load` runs the first word; after an empty `load` it
returns EMPTY with `pc = 1`. That the `load` may come in any run-state is decision D20 (log 18). -/
def Obligations.FirstStepAfterLoad : Prop :=
  ∀ s : State,
    (∀ (w : Word) (ws : List Word) (i : Instr), decode w = .ok i →
      step (s.load (w :: ws)) = exec i { s.load (w :: ws) with pc := 1#32 }) ∧
    (∃ t, step (s.load []) = .next t ∧ t.pc = 1#32 ∧ t.run = .empty ∧ t.returned .empty false)

/-- 70_reset_and_hazards.md R171, R172, R176: every transaction answers, a step in Idle apart; `load` answers the number
of words dropped, a step its outcome and OVF, a snapshot read the current value, and a snapshot read changes nothing
(decisions D16, D20, D22; log 16, log 18, log 20). -/
def Obligations.TransactionsAnswer : Prop :=
  ∀ s : State,
    (∀ words, transact (.load words) s = .next (s.load words, .dropped (max (words.length : Int) 256 - 256).toNat)) ∧
    (s.run ≠ .idle → ∃ t o, step s = .next t ∧ t.outcome = some o ∧
      transact .step s = .next (t, .stepped (some o) t.ovf)) ∧
    (s.run = .idle → transact .step s = .refused .stepBeforeLoad) ∧
    (∀ r, transact (.readRegister r) s = .next (s, .value (s.readReg r))) ∧
    (∀ a, transact (.readDataWord a) s = .next (s, .value (s.dmem.read a.val))) ∧
    transact .readPc s = .next (s, .value s.pc)

/-- The invariant holds after power-on (10_state.md R36, 70_reset_and_hazards.md R170): the values after power-on are
decision D2 (log 2, log 22), the list form of the memories is the model's own (log 17), and so is the outcome none, since
no step has run (log 8). -/
def Obligations.InvariantHoldsAtReset : Prop := State.reset.Inv

/-- Every step keeps the invariant: both memories canonical and inside their spaces (20_memory.md R48), `pc` a value it
can hold (10_state.md R26), OVF only with CONTINUED (40_fetch_step.md R96), and the run-state in agreement with the
outcome and with the word that ended the run (R91, R93, R94). Clauses that rest on a choice: the canonical lists (the
model's, log 17; what they leave unlisted reads as zero, log 22), the outcome none while Idle (the model's, log 8), `pc`
wrapped to at least 2^32 - 32767 (decision D3, log 3; it also rests on the J target of D13, log 13, and on the BEQ offset
of D12, log 12), `pc` kept by a fetch out of range (D4, log 4), the outcome of a step in Halted and Empty (D5, log 5),
Loaded after an error (D7, log 7), OVF as the report of one step (D8, D19, log 8). -/
def Obligations.StepKeepsTheInvariant : Prop :=
  ∀ s t : State, s.Inv → step s = .next t → t.Inv

/-- A `load` of any words, in any run-state, keeps the invariant (70_reset_and_hazards.md R172). That `load` is allowed in
any run-state is decision D20 (log 18), the canonical lists are the model's form (log 17; log 22), and so is the outcome
none after a load (log 8). -/
def Obligations.LoadKeepsTheInvariant : Prop :=
  ∀ (words : List Word) (s : State), s.Inv → (s.load words).Inv
end

