-- ==== Sys2Proof/Laws/Config.lean ====
section
/-! SUPPORT. The values of the parameters of 00_scope.md R6, the sizes being the ones simp unfolds. -/

namespace Sys2Proof.Config

@[simp] theorem imemWords_eq : imemWords = 256 := rfl
@[simp] theorem dmemWords_eq : dmemWords = 1024 := rfl
theorem haltWord_eq : haltWord = 0xFFFFFFFF#32 := rfl
theorem emptyWord_eq : emptyWord = 0x00000000#32 := rfl
theorem unlistedWord_eq : unlistedWord = 0x00000000#32 := rfl
theorem initReg_eq : initReg = 0x00000000#32 := rfl

end Sys2Proof.Config
end

