-- ==== Sys2Proof/Laws/Decode.lean ====
section
/-! SUPPORT. The fields of a word as numbers, and the fields of a word built from fields (30_encoding.md R61, R74). -/

namespace Sys2Proof

/-! ## The fields of a word, by division -/

theorem opField_toNat (w : Word) : (opField w).toNat = w.toNat / 2 ^ 26 := by
  have := w.isLt
  simp only [opField, BitVec.extractLsb'_toNat, Nat.shiftRight_eq_div_pow]
  omega

theorem rsField_val (w : Word) : (rsField w).val = w.toNat / 2 ^ 21 % 2 ^ 5 := by
  simp only [rsField, BitVec.extractLsb'_toNat, Nat.shiftRight_eq_div_pow]

theorem rtField_val (w : Word) : (rtField w).val = w.toNat / 2 ^ 16 % 2 ^ 5 := by
  simp only [rtField, BitVec.extractLsb'_toNat, Nat.shiftRight_eq_div_pow]

theorem rdField_val (w : Word) : (rdField w).val = w.toNat / 2 ^ 11 % 2 ^ 5 := by
  simp only [rdField, BitVec.extractLsb'_toNat, Nat.shiftRight_eq_div_pow]

theorem immField_toNat (w : Word) : (immField w).toNat = w.toNat % 2 ^ 16 := by
  simp only [immField, BitVec.extractLsb'_toNat, Nat.shiftRight_zero]

theorem functField_toNat (w : Word) : (functField w).toNat = w.toNat % 2 ^ 6 := by
  simp only [functField, BitVec.extractLsb'_toNat, Nat.shiftRight_zero]

theorem targetField_toNat (w : Word) : (targetField w).toNat = w.toNat % 2 ^ 26 := by
  simp only [targetField, BitVec.extractLsb'_toNat, Nat.shiftRight_zero]

/-! ## The number built from fields, as a sum -/

theorem shiftLeft_or (a b n : Nat) (h : b < 2 ^ n) : a <<< n ||| b = a * 2 ^ n + b := by
  rw [← Nat.shiftLeft_add_eq_or_of_lt h, Nat.shiftLeft_eq]

/-- An I-format word as a sum of its fields. -/
theorem WordFormat.number_iFormat (op rs rt imm : Nat) (h2 : rs < 2 ^ 5) (h3 : rt < 2 ^ 5)
    (h4 : imm < 2 ^ 16) :
    (WordFormat.iFormat op rs rt imm).number = op * 2 ^ 26 + rs * 2 ^ 21 + rt * 2 ^ 16 + imm := by
  have e1 : op <<< 26 ||| rs <<< 21 = (op * 2 ^ 5 + rs) <<< 21 := by
    rw [shiftLeft_or _ _ _ (by rw [Nat.shiftLeft_eq]; omega)]
    simp only [Nat.shiftLeft_eq]
    ring
  have e2 : (op * 2 ^ 5 + rs) <<< 21 ||| rt <<< 16 = ((op * 2 ^ 5 + rs) * 2 ^ 5 + rt) <<< 16 := by
    rw [shiftLeft_or _ _ _ (by rw [Nat.shiftLeft_eq]; omega)]
    simp only [Nat.shiftLeft_eq]
    ring
  rw [WordFormat.number, e1, e2, shiftLeft_or _ _ _ h4]
  ring

/-- An R-format word as a sum of its fields. -/
theorem WordFormat.number_rFormat (rs rt rd funct : Nat) (h2 : rt < 2 ^ 5) (h3 : rd < 2 ^ 5)
    (h4 : funct < 2 ^ 6) :
    (WordFormat.rFormat rs rt rd funct).number = rs * 2 ^ 21 + rt * 2 ^ 16 + rd * 2 ^ 11 + funct := by
  have e1 : rs <<< 21 ||| rt <<< 16 = (rs * 2 ^ 5 + rt) <<< 16 := by
    rw [shiftLeft_or _ _ _ (by rw [Nat.shiftLeft_eq]; omega)]
    simp only [Nat.shiftLeft_eq]
    ring
  have e2 : (rs * 2 ^ 5 + rt) <<< 16 ||| rd <<< 11 = ((rs * 2 ^ 5 + rt) * 2 ^ 5 + rd) <<< 11 := by
    rw [shiftLeft_or _ _ _ (by rw [Nat.shiftLeft_eq]; omega)]
    simp only [Nat.shiftLeft_eq]
    ring
  rw [WordFormat.number, e1, e2, shiftLeft_or _ _ _ (by omega)]
  ring

/-- A J-format word as a sum of its fields. -/
theorem WordFormat.number_jFormat (target : Nat) (h : target < 2 ^ 26) :
    (WordFormat.jFormat target).number = 0x02 * 2 ^ 26 + target := by
  rw [WordFormat.number, shiftLeft_or _ _ _ h]

/-! ## The fields of a word built from fields -/

/-- The fields an I-format word is built from are its fields (R63, R74). -/
theorem fields_iFormat (op rs rt imm : Nat) (h : (WordFormat.iFormat op rs rt imm).wellFormed = true) :
    let w : Word := BitVec.ofNat 32 (WordFormat.iFormat op rs rt imm).number
    (opField w).toNat = op ∧ (rsField w).val = rs ∧ (rtField w).val = rt ∧ (immField w).toNat = imm := by
  simp only [WordFormat.wellFormed, WordFormat.codeOk, WordFormat.regOk, WordFormat.immOk, Bool.and_eq_true,
    decide_eq_true_eq] at h
  obtain ⟨⟨⟨h1, h2⟩, h3⟩, h4⟩ := h
  simp only [opField_toNat, rsField_val, rtField_val, immField_toNat, BitVec.toNat_ofNat,
    WordFormat.number_iFormat op rs rt imm h2 h3 h4]
  omega

/-- The fields an R-format word is built from are its fields (R62, R74). -/
theorem fields_rFormat (rs rt rd funct : Nat) (h : (WordFormat.rFormat rs rt rd funct).wellFormed = true) :
    let w : Word := BitVec.ofNat 32 (WordFormat.rFormat rs rt rd funct).number
    (opField w).toNat = 0 ∧ (rsField w).val = rs ∧ (rtField w).val = rt ∧ (rdField w).val = rd ∧
      (functField w).toNat = funct := by
  simp only [WordFormat.wellFormed, WordFormat.codeOk, WordFormat.regOk, Bool.and_eq_true, decide_eq_true_eq] at h
  obtain ⟨⟨⟨h1, h2⟩, h3⟩, h4⟩ := h
  simp only [opField_toNat, rsField_val, rtField_val, rdField_val, functField_toNat, BitVec.toNat_ofNat,
    WordFormat.number_rFormat rs rt rd funct h2 h3 h4]
  omega

/-- The target a J-format word is built from is its target (R64, R74). -/
theorem fields_jFormat (target : Nat) (h : (WordFormat.jFormat target).wellFormed = true) :
    let w : Word := BitVec.ofNat 32 (WordFormat.jFormat target).number
    (opField w).toNat = 0x02 ∧ (targetField w).toNat = target := by
  simp only [WordFormat.wellFormed, WordFormat.targetOk, decide_eq_true_eq] at h
  simp only [opField_toNat, targetField_toNat, BitVec.toNat_ofNat, WordFormat.number_jFormat target h]
  omega

/-! ## A word rebuilt from its own fields -/

/-- A word is the sum of its I-format fields. -/
theorem toNat_eq_iFields (w : Word) :
    w.toNat = (opField w).toNat * 2 ^ 26 + (rsField w).val * 2 ^ 21 + (rtField w).val * 2 ^ 16 +
      (immField w).toNat := by
  rw [opField_toNat, rsField_val, rtField_val, immField_toNat]
  omega

/-- A word whose bits 10 to 6 are cleared is the sum of its R-format fields. -/
theorem toNat_clear_eq_rFields (w : Word) :
    (w &&& 0xFFFFF83F#32).toNat = (opField w).toNat * 2 ^ 26 + (rsField w).val * 2 ^ 21 + (rtField w).val * 2 ^ 16 +
      (rdField w).val * 2 ^ 11 + (functField w).toNat := by
  have hw := w.isLt
  have hsplit : w &&& 0xFFFFF83F#32 = (w >>> 11) <<< 11 ||| (w &&& 0x3F#32) := by
    ext i hi
    interval_cases i <;> simp
  have hsum : (w &&& 0xFFFFF83F#32).toNat = w.toNat / 2 ^ 11 * 2 ^ 11 + w.toNat % 2 ^ 6 := by
    rw [hsplit, BitVec.toNat_or, BitVec.toNat_shiftLeft, BitVec.toNat_and, BitVec.toNat_ushiftRight,
      show (0x3F#32).toNat = 2 ^ 6 - 1 from rfl, Nat.and_two_pow_sub_one_eq_mod,
      Nat.mod_eq_of_lt (by rw [Nat.shiftLeft_eq, Nat.shiftRight_eq_div_pow]; omega),
      shiftLeft_or _ _ _ (by omega), Nat.shiftRight_eq_div_pow]
  have hdiv : ∀ n, w.toNat / 2 ^ (11 + n) = w.toNat / 2 ^ 11 / 2 ^ n := fun n => by
    rw [Nat.div_div_eq_div_mul, ← Nat.pow_add]
  have h5 := hdiv 5
  have h10 := hdiv 10
  have h15 := hdiv 15
  rw [hsum, opField_toNat, rsField_val, rtField_val, rdField_val, functField_toNat]
  generalize w.toNat / 2 ^ 11 = q at *
  omega

theorem iFormat_of_fields (w : Word) (op : Nat) (h : (opField w).toNat = op) :
    BitVec.ofNat 32 (WordFormat.iFormat op (rsField w) (rtField w) (immField w).toNat).number = w := by
  subst h
  rw [WordFormat.number_iFormat _ _ _ _ (rsField w).isLt (rtField w).isLt (immField w).isLt, ← toNat_eq_iFields]
  simp

theorem jFormat_of_fields (w : Word) (h : (opField w).toNat = 0x02) :
    BitVec.ofNat 32 (WordFormat.jFormat (targetField w).toNat).number = w := by
  have hw : 0x02 * 2 ^ 26 + (targetField w).toNat = w.toNat := by
    rw [opField_toNat] at h
    rw [targetField_toNat]
    omega
  rw [WordFormat.number_jFormat _ (targetField w).isLt, hw]
  simp

theorem rFormat_of_fields (w : Word) (funct : Nat) (h0 : opField w = 0x00#6) (h : (functField w).toNat = funct) :
    BitVec.ofNat 32 (WordFormat.rFormat (rsField w) (rtField w) (rdField w) funct).number = w &&& 0xFFFFF83F#32 := by
  subst h
  have h1 := (rsField w).isLt
  have h2 := (rtField w).isLt
  have h3 := (rdField w).isLt
  have h4 := (functField w).isLt
  rw [WordFormat.number_rFormat _ _ _ _ h2 h3 h4]
  apply BitVec.eq_of_toNat_eq
  rw [toNat_clear_eq_rFields, h0, BitVec.toNat_ofNat, Nat.mod_eq_of_lt (by omega)]
  simp

/-! ## The fields of a word that hits a row of the table (R66) -/

theorem opField_of_mask (w m p : Word) (h : w &&& m = p) (hm : m.extractLsb' 26 6 = 0x3F#6) :
    opField w = p.extractLsb' 26 6 := by
  have h' := congrArg (BitVec.extractLsb' 26 6) h
  rw [BitVec.extractLsb'_and, hm] at h'
  rw [← h']
  exact (BitVec.and_allOnes (x := w.extractLsb' 26 6)).symm

theorem functField_of_mask (w m p : Word) (h : w &&& m = p) (hm : m.extractLsb' 0 6 = 0x3F#6) :
    functField w = p.extractLsb' 0 6 := by
  have h' := congrArg (BitVec.extractLsb' 0 6) h
  rw [BitVec.extractLsb'_and, hm] at h'
  rw [← h']
  exact (BitVec.and_allOnes (x := w.extractLsb' 0 6)).symm

theorem opMask_of_field (w : Word) : w &&& 0xFC000000#32 = (opField w).setWidth 32 <<< 26 := by
  ext i hi
  interval_cases i <;> simp [opField]

theorem functMask_of_field (w : Word) (h : opField w = 0x00#6) :
    w &&& 0xFC00003F#32 = (functField w).setWidth 32 := by
  have hsplit : w &&& 0xFC00003F#32 = (w &&& 0xFC000000#32) ||| (w &&& 0x3F#32) := by
    rw [← BitVec.and_or_distrib_left]
    rfl
  rw [hsplit, opMask_of_field, h]
  ext i hi
  interval_cases i <;> simp [functField]

/-! ## The dispatch (R70) -/

/-- A word that is no sentinel is dispatched on its opcode. -/
theorem decode_of_ne (w : Word) (h1 : w ≠ 0xFFFFFFFF#32) (h0 : w ≠ 0x00000000#32) : decode w = decodeOpcode w := by
  simp [decode, h1, h0, Config.haltWord_eq, Config.emptyWord_eq]

theorem decode_of_op (w : Word) (h1 : opField w ≠ 0x3F#6) (h0 : opField w ≠ 0x00#6) :
    decode w = decodeOpcode w := by
  apply decode_of_ne <;> rintro rfl
  · exact h1 rfl
  · exact h0 rfl

theorem decode_of_funct (w : Word) (h : opField w = 0x00#6) (h0 : functField w ≠ 0x00#6) :
    decode w = decodeFunct w := by
  rw [decode_of_ne]
  · simp [decodeOpcode, h]
  · rintro rfl
    exact absurd h (by decide)
  · rintro rfl
    exact h0 rfl

@[simp] theorem decode_halt : decode 0xFFFFFFFF#32 = .ok .halt := rfl
@[simp] theorem decode_empty : decode 0x00000000#32 = .ok .empty := rfl

theorem decodeFunct_ne_sentinel (w : Word) : decodeFunct w ≠ .ok .halt ∧ decodeFunct w ≠ .ok .empty := by
  unfold decodeFunct
  split <;> simp

theorem decodeOpcode_ne_sentinel (w : Word) : decodeOpcode w ≠ .ok .halt ∧ decodeOpcode w ≠ .ok .empty := by
  unfold decodeOpcode
  split
  case h_1 => exact decodeFunct_ne_sentinel w
  all_goals simp

/-- Only the exact word is HALT (R93). -/
theorem decode_eq_halt (w : Word) : decode w = .ok .halt ↔ w = 0xFFFFFFFF#32 := by
  constructor
  · intro h
    by_contra h1
    by_cases h0 : w = 0x00000000#32
    · subst h0
      cases h
    · exact (decodeOpcode_ne_sentinel w).1 (decode_of_ne w h1 h0 ▸ h)
  · rintro rfl
    rfl

/-- Only the exact word is EMPTY (R94). -/
theorem decode_eq_empty (w : Word) : decode w = .ok .empty ↔ w = 0x00000000#32 := by
  constructor
  · intro h
    by_contra h0
    by_cases h1 : w = 0xFFFFFFFF#32
    · subst h1
      cases h
    · exact (decodeOpcode_ne_sentinel w).2 (decode_of_ne w h1 h0 ▸ h)
  · rintro rfl
    rfl

end Sys2Proof
end

