-- ==== Sys2Proof/Laws/Memory.lean ====
section
/-! SUPPORT. The laws of a memory: reading after writing (20_memory.md R43), the canonical form, and the memory that
`load` installs (70_reset_and_hazards.md R172). -/

namespace Sys2Proof.Machine

@[simp] theorem Memory.read_nil (a : Nat) : Memory.read [] a = Config.unlistedWord := rfl

theorem Memory.read_cons (k : Nat) (v : Word) (m : Memory) (a : Nat) :
    Memory.read ((k, v) :: m) a = if k = a then v else Memory.read m a := rfl

theorem Memory.read_filter_self (m : Memory) (a : Nat) :
    Memory.read (m.filter (fun c => c.1 != a)) a = Config.unlistedWord := by
  induction m with
  | nil => rfl
  | cons c m ih =>
    obtain ⟨k, v⟩ := c
    by_cases h : k = a <;> simp [Memory.read_cons, h, ih]

theorem Memory.read_filter_ne (m : Memory) (a b : Nat) (h : b ≠ a) :
    Memory.read (m.filter (fun c => c.1 != a)) b = Memory.read m b := by
  induction m with
  | nil => rfl
  | cons c m ih =>
    obtain ⟨k, v⟩ := c
    by_cases hk : k = a
    · simp [Memory.read_cons, hk, ih, Ne.symm h]
    · simp [Memory.read_cons, hk, ih]

theorem Memory.read_place_self (m : Memory) (a : Nat) (v : Word) (h : ∀ c ∈ m, c.1 ≠ a) :
    Memory.read (Memory.place a v m) a = v := by
  induction m with
  | nil => simp [Memory.place, Memory.read_cons]
  | cons c m ih =>
    obtain ⟨k, x⟩ := c
    have hk : k ≠ a := h (k, x) (by simp)
    have ht : ∀ c ∈ m, c.1 ≠ a := fun c hc => h c (by simp [hc])
    by_cases ha : a < k <;> simp [Memory.place, Memory.read_cons, ha, hk, ih ht]

theorem Memory.read_place_ne (m : Memory) (a b : Nat) (v : Word) (h : b ≠ a) :
    Memory.read (Memory.place a v m) b = Memory.read m b := by
  induction m with
  | nil => simp [Memory.place, Memory.read_cons, Ne.symm h]
  | cons c m ih =>
    obtain ⟨k, x⟩ := c
    by_cases ha : a < k <;> simp [Memory.place, Memory.read_cons, ha, ih, Ne.symm h]

/-- What `Memory.write` does to the word it writes. -/
@[simp] theorem Memory.read_write_self (m : Memory) (a : Nat) (v : Word) : (Memory.write m a v).read a = v := by
  unfold Memory.write
  by_cases hv : v = Config.unlistedWord
  · simp [hv, Memory.read_filter_self]
  · simp only [hv, if_false]
    exact Memory.read_place_self _ a v (fun c hc => by simpa using (List.mem_filter.mp hc).2)

/-- What `Memory.write` does to every other word. -/
@[simp] theorem Memory.read_write_ne (m : Memory) (a b : Nat) (v : Word) (h : b ≠ a) :
    (Memory.write m a v).read b = m.read b := by
  unfold Memory.write
  by_cases hv : v = Config.unlistedWord
  · simp [hv, Memory.read_filter_ne m a b h]
  · simp [hv, Memory.read_place_ne _ a b v h, Memory.read_filter_ne m a b h]

/-! ## The canonical form -/

theorem Memory.wf_iff (size : Nat) (m : Memory) :
    m.wf size = true ↔
      m.Pairwise (fun c d => c.1 < d.1) ∧ ∀ c ∈ m, c.1 < size ∧ c.2 ≠ Config.unlistedWord := by
  simp [Memory.wf]

@[simp] theorem Memory.wf_nil (size : Nat) : Memory.wf size [] = true := by simp [Memory.wf]

theorem Memory.wf_cons (size k : Nat) (v : Word) (m : Memory) :
    Memory.wf size ((k, v) :: m) = true ↔
      (k < size ∧ v ≠ Config.unlistedWord) ∧ (∀ c ∈ m, k < c.1) ∧ m.wf size = true := by
  simp only [Memory.wf_iff, List.pairwise_cons, List.forall_mem_cons]
  tauto

theorem Memory.wf_filter (size : Nat) (m : Memory) (p : Nat × Word → Bool) (h : m.wf size = true) :
    Memory.wf size (m.filter p) = true := by
  rw [Memory.wf_iff] at *
  exact ⟨h.1.filter _, fun c hc => h.2 c (List.mem_filter.mp hc).1⟩

theorem Memory.mem_place (m : Memory) (a : Nat) (v : Word) (c : Nat × Word) (h : c ∈ Memory.place a v m) :
    c = (a, v) ∨ c ∈ m := by
  induction m with
  | nil => simpa [Memory.place] using h
  | cons d m ih =>
    obtain ⟨k, x⟩ := d
    by_cases ha : a < k
    · simpa [Memory.place, ha] using h
    · simp only [Memory.place, ha, if_false, List.mem_cons] at h
      rcases h with rfl | h
      · simp
      · rcases ih h with h | h <;> simp [h]

theorem Memory.wf_place (size : Nat) (m : Memory) (a : Nat) (v : Word) (h : m.wf size = true)
    (ha : a < size) (hv : v ≠ Config.unlistedWord) (hm : ∀ c ∈ m, c.1 ≠ a) :
    Memory.wf size (Memory.place a v m) = true := by
  induction m with
  | nil => simp [Memory.place, Memory.wf_cons, ha, hv]
  | cons c m ih =>
    obtain ⟨k, x⟩ := c
    obtain ⟨hkx, hk, hwf⟩ := (Memory.wf_cons ..).mp h
    have hka : k ≠ a := hm (k, x) (by simp)
    by_cases hlt : a < k
    · simp only [Memory.place, hlt, if_true]
      refine (Memory.wf_cons ..).mpr ⟨⟨ha, hv⟩, fun c hc => ?_, h⟩
      rcases List.mem_cons.mp hc with rfl | hc
      · exact hlt
      · exact lt_trans hlt (hk c hc)
    · simp only [Memory.place, hlt, if_false]
      refine (Memory.wf_cons ..).mpr ⟨hkx, fun c hc => ?_, ih hwf (fun c hc => hm c (by simp [hc]))⟩
      rcases Memory.mem_place m a v c hc with rfl | hc
      · show k < a
        omega
      · exact hk c hc

/-- Every write inside the address space keeps the canonical form. -/
theorem Memory.wf_write (size : Nat) (m : Memory) (a : Nat) (v : Word) (h : m.wf size = true) (ha : a < size) :
    (Memory.write m a v).wf size = true := by
  unfold Memory.write
  have hf := Memory.wf_filter size m (fun c => c.1 != a) h
  by_cases hv : v = Config.unlistedWord
  · simpa [hv] using hf
  · simp only [hv, if_false]
    exact Memory.wf_place size _ a v hf ha hv (fun c hc => by simpa using (List.mem_filter.mp hc).2)

/-- A word below every listed index reads as unlisted. -/
theorem Memory.read_of_forall_ne (m : Memory) (a : Nat) (h : ∀ c ∈ m, c.1 ≠ a) :
    m.read a = Config.unlistedWord := by
  induction m with
  | nil => rfl
  | cons c m ih =>
    obtain ⟨k, v⟩ := c
    have hk : k ≠ a := h (k, v) (by simp)
    simp [Memory.read_cons, hk, ih (fun c hc => h c (by simp [hc]))]

/-! ## The memory that `load` installs -/

theorem Memory.ofWords_index (k : Nat) (ws : List Word) (c : Nat × Word) (h : c ∈ Memory.ofWords k ws) :
    k ≤ c.1 ∧ c.1 < k + ws.length ∧ c.2 ≠ Config.unlistedWord := by
  induction ws generalizing k with
  | nil => simp [Memory.ofWords] at h
  | cons w ws ih =>
    by_cases hw : w = Config.unlistedWord
    · have := ih (k + 1) (by simpa [Memory.ofWords, hw] using h)
      simp only [List.length_cons]
      exact ⟨by omega, by omega, this.2.2⟩
    · simp only [Memory.ofWords, hw, if_false, List.mem_cons] at h
      rcases h with rfl | h
      · simp [hw]
      · have := ih (k + 1) h
        simp only [List.length_cons]
        exact ⟨by omega, by omega, this.2.2⟩

/-- Index `k + n` holds word `n`; past the end everything is unlisted. -/
theorem Memory.read_ofWords (k n : Nat) (ws : List Word) :
    (Memory.ofWords k ws).read (k + n) = ws.getD n Config.unlistedWord := by
  induction ws generalizing k n with
  | nil => simp [Memory.ofWords]
  | cons w ws ih =>
    cases n with
    | zero =>
      by_cases hw : w = Config.unlistedWord
      · simp only [Memory.ofWords, hw, if_true, List.getD_cons_zero, Nat.add_zero]
        exact Memory.read_of_forall_ne _ k (fun c hc => by have := Memory.ofWords_index _ _ c hc; omega)
      · simp [Memory.ofWords, hw, Memory.read_cons]
    | succ n =>
      have ih' := ih (k + 1) n
      rw [show k + 1 + n = k + (n + 1) by omega] at ih'
      by_cases hw : w = Config.unlistedWord
      · simpa [Memory.ofWords, hw] using ih'
      · simpa [Memory.ofWords, hw, Memory.read_cons] using ih'

/-- The words from index `k` on, canonical in any memory that has room for them. -/
theorem Memory.wf_ofWords (size k : Nat) (ws : List Word) (h : k + ws.length ≤ size) :
    (Memory.ofWords k ws).wf size = true := by
  induction ws generalizing k with
  | nil => simp [Memory.ofWords]
  | cons w ws ih =>
    simp only [List.length_cons] at h
    by_cases hw : w = Config.unlistedWord
    · simpa [Memory.ofWords, hw] using ih (k + 1) (by omega)
    · simp only [Memory.ofWords, hw, if_false]
      refine (Memory.wf_cons ..).mpr ⟨⟨by omega, hw⟩, fun c hc => ?_, ih (k + 1) (by omega)⟩
      have := Memory.ofWords_index _ _ c hc
      omega

end Sys2Proof.Machine
end

