-- ==== Sys2Proof/Laws/Operands.lean ====
section
/-! SUPPORT. The operand forms and the overflow test in terms of bit-vector arithmetic (00_scope.md R8, R9;
41_alu_register.md R111). -/

namespace Sys2Proof.Machine

/-! ## Back to 32 bits -/

@[simp] theorem trunc32_natCast (n : Nat) : trunc32 (n : Int) = BitVec.ofNat 32 n := by
  simp [trunc32]

theorem trunc32_toNat_add (a b : Word) : trunc32 ((a.toNat : Int) + b.toNat) = a + b := by
  rw [← Int.natCast_add, trunc32_natCast]
  exact BitVec.eq_of_toNat_eq (by simp)

theorem trunc32_toInt_add (a b : Word) : trunc32 (a.toInt + b.toInt) = a + b :=
  BitVec.eq_of_toInt_eq (by simp [trunc32, BitVec.toInt_add])

theorem trunc32_toInt_sub (a b : Word) : trunc32 (a.toInt - b.toInt) = a - b :=
  BitVec.eq_of_toInt_eq (by simp [trunc32, BitVec.toInt_sub])

/-- Adding an exact integer to the unsigned view of a pattern adds its pattern. -/
theorem trunc32_toNat_add_int (a : Word) (d : Int) : trunc32 ((a.toNat : Int) + d) = a + trunc32 d := by
  simp [trunc32, BitVec.ofInt_add]

theorem trunc32_toNat_sub (a b : Word) : trunc32 ((a.toNat : Int) - b.toNat) = a - b := by
  rw [Int.sub_eq_add_neg, trunc32_toNat_add_int]
  simp [trunc32, BitVec.ofInt_neg, BitVec.sub_eq_add_neg]

/-! ## The immediate -/

@[simp] theorem sext32_toInt (i : Imm16) : (sext32 i).toInt = i.toInt := by
  simp [sext32, BitVec.toInt_signExtend_of_le]

@[simp] theorem simm_eq (i : Imm16) : simm i = i.toInt := sext32_toInt i

@[simp] theorem uimm_eq (i : Imm16) : uimm i = i.toNat := by
  have := i.isLt
  simp [uimm, zext32]
  omega

@[simp] theorem beqOffset_eq (i : Imm16) : beqOffset i = i.toNat := uimm_eq i

@[simp] theorem bneOffset_eq (i : Imm16) : bneOffset i = i.toInt := simm_eq i

@[simp] theorem trunc32_toInt_imm (i : Imm16) : trunc32 i.toInt = i.signExtend 32 :=
  BitVec.eq_of_toInt_eq (by rw [← sext32_toInt, trunc32]; simp [sext32])

theorem trunc32_toNat_imm (i : Imm16) : trunc32 (i.toNat : Int) = i.setWidth 32 := by
  rw [trunc32_natCast]
  exact BitVec.eq_of_toNat_eq (by simp)

theorem imm_toInt_range (i : Imm16) : -32768 ≤ i.toInt ∧ i.toInt ≤ 32767 := by
  have h1 := BitVec.le_toInt i
  have h2 := BitVec.toInt_lt (x := i)
  exact ⟨by simpa using h1, by have : i.toInt < 32768 := by simpa using h2
                               omega⟩

theorem dataInBounds_iff (a : Int) : dataInBounds a = true ↔ 0 ≤ a ∧ a ≤ 1023 := by
  have h : (Config.dmemWords : Int) = 1024 := rfl
  simp only [dataInBounds, h, Bool.and_eq_true, decide_eq_true_eq]
  omega

/-! ## The overflow test -/

theorem fitsSigned32_iff (r : Int) : fitsSigned32 r = true ↔ -2 ^ 31 ≤ r ∧ r ≤ 2 ^ 31 - 1 := by
  simp [fitsSigned32]

/-- An exact result that fits is the signed view of the pattern written. -/
theorem toInt_trunc32_of_fits (r : Int) (h : -2 ^ 31 ≤ r ∧ r ≤ 2 ^ 31 - 1) : (trunc32 r).toInt = r := by
  rw [trunc32, BitVec.toInt_ofInt]
  exact Int.bmod_eq_of_le (by norm_num at *; omega) (by norm_num at *; omega)

end Sys2Proof.Machine
end

