-- ==== Sys2Proof/Laws/State.lean ====
section
/-! SUPPORT. One lemma per field per update of the state, all true by unfolding, so that no later proof opens a record
update; and what each compound operation is in terms of the five primitive ones. -/

namespace Sys2Proof.Machine

/-! ## The primitive updates -/

@[simp] theorem State.writeReg_regs (r : RegIdx) (v : Word) (s : State) : (s.writeReg r v).regs = s.regs.set r.val v r.isLt := rfl
@[simp] theorem State.writeReg_pc (r : RegIdx) (v : Word) (s : State) : (s.writeReg r v).pc = s.pc := rfl
@[simp] theorem State.writeReg_dmem (r : RegIdx) (v : Word) (s : State) : (s.writeReg r v).dmem = s.dmem := rfl
@[simp] theorem State.writeReg_imem (r : RegIdx) (v : Word) (s : State) : (s.writeReg r v).imem = s.imem := rfl
@[simp] theorem State.writeReg_run (r : RegIdx) (v : Word) (s : State) : (s.writeReg r v).run = s.run := rfl
@[simp] theorem State.writeReg_outcome (r : RegIdx) (v : Word) (s : State) : (s.writeReg r v).outcome = s.outcome := rfl
@[simp] theorem State.writeReg_ovf (r : RegIdx) (v : Word) (s : State) : (s.writeReg r v).ovf = s.ovf := rfl

@[simp] theorem State.writeData_regs (a : Nat) (v : Word) (s : State) : (s.writeData a v).regs = s.regs := rfl
@[simp] theorem State.writeData_pc (a : Nat) (v : Word) (s : State) : (s.writeData a v).pc = s.pc := rfl
@[simp] theorem State.writeData_dmem (a : Nat) (v : Word) (s : State) : (s.writeData a v).dmem = s.dmem.write a v := rfl
@[simp] theorem State.writeData_imem (a : Nat) (v : Word) (s : State) : (s.writeData a v).imem = s.imem := rfl
@[simp] theorem State.writeData_run (a : Nat) (v : Word) (s : State) : (s.writeData a v).run = s.run := rfl
@[simp] theorem State.writeData_outcome (a : Nat) (v : Word) (s : State) : (s.writeData a v).outcome = s.outcome := rfl
@[simp] theorem State.writeData_ovf (a : Nat) (v : Word) (s : State) : (s.writeData a v).ovf = s.ovf := rfl

@[simp] theorem State.jumpTo_regs (d : Int) (s : State) : (s.jumpTo d).regs = s.regs := rfl
@[simp] theorem State.jumpTo_pc (d : Int) (s : State) : (s.jumpTo d).pc = trunc32 d := rfl
@[simp] theorem State.jumpTo_dmem (d : Int) (s : State) : (s.jumpTo d).dmem = s.dmem := rfl
@[simp] theorem State.jumpTo_imem (d : Int) (s : State) : (s.jumpTo d).imem = s.imem := rfl
@[simp] theorem State.jumpTo_run (d : Int) (s : State) : (s.jumpTo d).run = s.run := rfl
@[simp] theorem State.jumpTo_outcome (d : Int) (s : State) : (s.jumpTo d).outcome = s.outcome := rfl
@[simp] theorem State.jumpTo_ovf (d : Int) (s : State) : (s.jumpTo d).ovf = s.ovf := rfl

@[simp] theorem State.setRun_regs (r : RunState) (s : State) : (s.setRun r).regs = s.regs := rfl
@[simp] theorem State.setRun_pc (r : RunState) (s : State) : (s.setRun r).pc = s.pc := rfl
@[simp] theorem State.setRun_dmem (r : RunState) (s : State) : (s.setRun r).dmem = s.dmem := rfl
@[simp] theorem State.setRun_imem (r : RunState) (s : State) : (s.setRun r).imem = s.imem := rfl
@[simp] theorem State.setRun_run (r : RunState) (s : State) : (s.setRun r).run = r := rfl
@[simp] theorem State.setRun_outcome (r : RunState) (s : State) : (s.setRun r).outcome = s.outcome := rfl
@[simp] theorem State.setRun_ovf (r : RunState) (s : State) : (s.setRun r).ovf = s.ovf := rfl

@[simp] theorem State.report_regs (o : StepOutcome) (b : Bool) (s : State) : (s.report o b).regs = s.regs := rfl
@[simp] theorem State.report_pc (o : StepOutcome) (b : Bool) (s : State) : (s.report o b).pc = s.pc := rfl
@[simp] theorem State.report_dmem (o : StepOutcome) (b : Bool) (s : State) : (s.report o b).dmem = s.dmem := rfl
@[simp] theorem State.report_imem (o : StepOutcome) (b : Bool) (s : State) : (s.report o b).imem = s.imem := rfl
@[simp] theorem State.report_run (o : StepOutcome) (b : Bool) (s : State) : (s.report o b).run = s.run := rfl
@[simp] theorem State.report_outcome (o : StepOutcome) (b : Bool) (s : State) : (s.report o b).outcome = some o := rfl
@[simp] theorem State.report_ovf (o : StepOutcome) (b : Bool) (s : State) : (s.report o b).ovf = b := rfl

/-! ## The compound operations -/

@[simp] theorem State.continued_eq (s : State) : s.continued = s.report .continued false := rfl
@[simp] theorem State.overflowed_eq (s : State) : s.overflowed = s.report .continued true := rfl
@[simp] theorem State.raise_eq (e : StepError) (s : State) : s.raise e = s.report (.error e) false := rfl
@[simp] theorem State.commit_eq (d : RegIdx) (v : Word) (s : State) :
    s.commit d v = (s.writeReg d v).report .continued false := rfl
@[simp] theorem State.fetchOutOfRange_eq (s : State) :
    s.fetchOutOfRange = (s.setRun .empty).report .empty false := rfl

@[simp] theorem State.jumpBy_regs (d : Int) (s : State) : (s.jumpBy d).regs = s.regs := rfl
@[simp] theorem State.jumpBy_dmem (d : Int) (s : State) : (s.jumpBy d).dmem = s.dmem := rfl
@[simp] theorem State.jumpBy_imem (d : Int) (s : State) : (s.jumpBy d).imem = s.imem := rfl
@[simp] theorem State.jumpBy_run (d : Int) (s : State) : (s.jumpBy d).run = s.run := rfl
@[simp] theorem State.jumpBy_outcome (d : Int) (s : State) : (s.jumpBy d).outcome = s.outcome := rfl
@[simp] theorem State.jumpBy_ovf (d : Int) (s : State) : (s.jumpBy d).ovf = s.ovf := rfl

/-! ## `load` and `withFetchWord` -/

@[simp] theorem State.load_regs (ws : List Word) (s : State) : (s.load ws).regs = s.regs := rfl
@[simp] theorem State.load_pc (ws : List Word) (s : State) : (s.load ws).pc = 0x00000000#32 := rfl
@[simp] theorem State.load_dmem (ws : List Word) (s : State) : (s.load ws).dmem = s.dmem := rfl
@[simp] theorem State.load_imem (ws : List Word) (s : State) :
    (s.load ws).imem = Memory.ofWords 0 (ws.take Config.imemWords) := rfl
@[simp] theorem State.load_run (ws : List Word) (s : State) : (s.load ws).run = .loaded := rfl
@[simp] theorem State.load_outcome (ws : List Word) (s : State) : (s.load ws).outcome = none := rfl
@[simp] theorem State.load_ovf (ws : List Word) (s : State) : (s.load ws).ovf = false := rfl

@[simp] theorem State.withFetchWord_regs (s : State) (n w : Nat) : (s.withFetchWord n w).regs = s.regs := rfl
@[simp] theorem State.withFetchWord_dmem (s : State) (n w : Nat) : (s.withFetchWord n w).dmem = s.dmem := rfl
@[simp] theorem State.withFetchWord_run (s : State) (n w : Nat) : (s.withFetchWord n w).run = .loaded := rfl

/-! ## Reading registers and data words -/

theorem State.readReg_eq (r : RegIdx) (s : State) : s.readReg r = s.regs[r.val]'r.isLt := rfl

theorem State.readData_eq (a : Nat) (s : State) : s.readData a = s.dmem.read a := rfl

@[simp] theorem State.readReg_writeReg_self (r : RegIdx) (v : Word) (s : State) :
    (s.writeReg r v).readReg r = v := by
  simp [State.readReg_eq]

@[simp] theorem State.readReg_writeReg_ne (r d : RegIdx) (v : Word) (s : State) (h : r ≠ d) :
    (s.writeReg d v).readReg r = s.readReg r := by
  have hval : d.val ≠ r.val := fun hv => h (Fin.ext hv.symm)
  simp [State.readReg_eq, Vector.getElem_set_ne, hval]

@[simp] theorem State.readReg_writeData (r : RegIdx) (a : Nat) (v : Word) (s : State) :
    (s.writeData a v).readReg r = s.readReg r := rfl
@[simp] theorem State.readReg_jumpTo (r : RegIdx) (d : Int) (s : State) : (s.jumpTo d).readReg r = s.readReg r := rfl
@[simp] theorem State.readReg_jumpBy (r : RegIdx) (d : Int) (s : State) : (s.jumpBy d).readReg r = s.readReg r := rfl
@[simp] theorem State.readReg_setRun (r : RegIdx) (u : RunState) (s : State) :
    (s.setRun u).readReg r = s.readReg r := rfl
@[simp] theorem State.readReg_report (r : RegIdx) (o : StepOutcome) (b : Bool) (s : State) :
    (s.report o b).readReg r = s.readReg r := rfl

@[simp] theorem State.readData_writeReg (a : Nat) (r : RegIdx) (v : Word) (s : State) :
    (s.writeReg r v).readData a = s.readData a := rfl
@[simp] theorem State.readData_jumpTo (a : Nat) (d : Int) (s : State) : (s.jumpTo d).readData a = s.readData a := rfl
@[simp] theorem State.readData_jumpBy (a : Nat) (d : Int) (s : State) : (s.jumpBy d).readData a = s.readData a := rfl
@[simp] theorem State.readData_setRun (a : Nat) (u : RunState) (s : State) :
    (s.setRun u).readData a = s.readData a := rfl
@[simp] theorem State.readData_report (a : Nat) (o : StepOutcome) (b : Bool) (s : State) :
    (s.report o b).readData a = s.readData a := rfl

/-- Two states are equal when their register reads and their other fields are. -/
theorem State.ext_of_reads (s t : State) (hregs : ∀ r, t.readReg r = s.readReg r) (hpc : t.pc = s.pc)
    (hd : t.dmem = s.dmem) (hi : t.imem = s.imem) (hrun : t.run = s.run) (ho : t.outcome = s.outcome)
    (hv : t.ovf = s.ovf) : t = s := by
  have hr : t.regs = s.regs := Vector.ext fun i hi => by simpa [State.readReg_eq] using hregs ⟨i, hi⟩
  cases s; cases t; simp_all

end Sys2Proof.Machine
end

