-- ==== Sys2Proof/Laws/Exec.lean ====
section
/-! SUPPORT. Said once: what the shared operations do, everything that executing an instruction can do, and everything
a step can do. Later proofs cite these and do not unfold `exec` or `step`. -/

namespace Sys2Proof.Machine

/-! ## The shared operations -/

@[simp] theorem State.jumpBy_pc (d : Int) (s : State) : (s.jumpBy d).pc = s.pc + trunc32 d :=
  trunc32_toNat_add_int s.pc d

theorem State.advancePc_eq (s : State) : s.advancePc = { s with pc := s.pc + 1#32 } := by
  have h : s.advancePc.pc = s.pc + 1#32 := State.jumpBy_pc 1 s
  exact congrArg (fun p => { s with pc := p }) h

theorem State.advancePc_pc_toNat (s : State) (h : s.pc.toNat < 256) : s.advancePc.pc.toNat = s.pc.toNat + 1 := by
  rw [State.advancePc_eq]
  simp only [BitVec.toNat_add, BitVec.toNat_ofNat]
  omega

/-- Everything `commitSigned` can do. -/
theorem State.commitSigned_cases (d : RegIdx) (r : Int) (s : State) :
    (-2 ^ 31 ≤ r ∧ r ≤ 2 ^ 31 - 1 ∧ s.commitSigned d r = (s.writeReg d (trunc32 r)).report .continued false) ∨
    (¬ (-2 ^ 31 ≤ r ∧ r ≤ 2 ^ 31 - 1) ∧ s.commitSigned d r = s.report .continued true) := by
  unfold State.commitSigned
  by_cases h : fitsSigned32 r = true
  · exact .inl ⟨((fitsSigned32_iff r).mp h).1, ((fitsSigned32_iff r).mp h).2, by simp [h]⟩
  · exact .inr ⟨fun hr => h ((fitsSigned32_iff r).mpr hr), by simp [h]⟩

/-- Writes to two different registers commute. -/
theorem State.writeReg_comm (d q : RegIdx) (v w : Word) (s : State) (h : d ≠ q) :
    (s.writeReg q v).writeReg d w = (s.writeReg d w).writeReg q v := by
  apply State.ext_of_reads <;> try rfl
  intro r
  by_cases hq : r = q
  · subst hq
    simp [Ne.symm h]
  · by_cases hd : r = d
    · subst hd
      simp [h]
    · simp [hq, hd]

/-- The frame of writing one register. -/
theorem State.onlyReg_writeReg (d : RegIdx) (v : Word) (o : StepOutcome) (b : Bool) (s : State) :
    s.onlyReg d ((s.writeReg d v).report o b) :=
  ⟨fun r hr => by simp [hr], rfl, fun _ => rfl, fun _ => rfl, rfl⟩

/-- The frame of reporting only. -/
theorem State.nothing_report (o : StepOutcome) (b : Bool) (s : State) : s.nothing (s.report o b) :=
  ⟨⟨fun _ => rfl, fun _ => rfl, fun _ => rfl, rfl⟩, rfl⟩

/-- The fetch reads a word exactly when `pc <= 255` (R91, R92). -/
theorem State.fetchWord_eq_some (s : State) (w : Word) :
    s.fetchWord = some w ↔ s.pc.toNat ≤ 255 ∧ s.imem.read s.pc.toNat = w := by
  simp only [State.fetchWord, Config.imemWords_eq]
  by_cases h : s.pc.toNat < 256
  · simp [h]
    omega
  · simp [h]
    omega

theorem State.fetchWord_eq_none (s : State) : s.fetchWord = none ↔ 256 ≤ s.pc.toNat := by
  by_cases h : s.pc.toNat < 256
  · simp [State.fetchWord, h]
  · simp [State.fetchWord, h]
    omega

/-! ## Everything an instruction can do -/

/-- The effects that executing the instruction `i` on the state `s` can have. -/
inductive ExecEffect (i : Instr) (s : State) : State → Prop where
  /-- The destination register is written. -/
  | wrote (d : RegIdx) (v : Word) (hd : i.destination = some d) :
      ExecEffect i s ((s.writeReg d v).report .continued false)
  /-- ADD, SUB or ADDI overflowed. -/
  | overflowed (hi : i.mnemonic ∈ ["ADD", "SUB", "ADDI"]) : ExecEffect i s (s.report .continued true)
  /-- SW stored its register. -/
  | stored (rt : RegIdx) (imm : Imm16) (rs : RegIdx) (hi : i = .sw rt imm rs)
      (ha : 0 ≤ s.effectiveAddress rs imm ∧ s.effectiveAddress rs imm ≤ 1023) :
      ExecEffect i s
        ((s.writeData (s.effectiveAddress rs imm).toNat (s.readReg rt)).report .continued false)
  /-- LW or SW was out of bounds. -/
  | outOfBounds (rt : RegIdx) (imm : Imm16) (rs : RegIdx) (hi : i = .lw rt imm rs ∨ i = .sw rt imm rs)
      (ha : ¬ (0 ≤ s.effectiveAddress rs imm ∧ s.effectiveAddress rs imm ≤ 1023)) :
      ExecEffect i s (s.report (.error (.dataAddressOutOfBounds (s.effectiveAddress rs imm))) false)
  /-- J. -/
  | jumped (target : Target) (hi : i = .j target) : ExecEffect i s ((s.jumpTo target.toNat).report .continued false)
  /-- A taken BEQ. -/
  | beqTaken (rs rt : RegIdx) (imm : Imm16) (hi : i = .beq rs rt imm) :
      ExecEffect i s ((s.jumpBy imm.toNat).report .continued false)
  /-- A taken BNE. -/
  | bneTaken (rs rt : RegIdx) (imm : Imm16) (hi : i = .bne rs rt imm) :
      ExecEffect i s ((s.jumpBy imm.toInt).report .continued false)
  /-- A branch that is not taken. -/
  | notTaken (rs rt : RegIdx) (imm : Imm16) (hi : i = .beq rs rt imm ∨ i = .bne rs rt imm) :
      ExecEffect i s (s.report .continued false)
  /-- HALT. -/
  | halted (hi : i = .halt) : ExecEffect i s ((s.setRun .halted).report .halted false)
  /-- EMPTY. -/
  | emptied (hi : i = .empty) : ExecEffect i s ((s.setRun .empty).report .empty false)

theorem ExecEffect.ofCommitSigned (i : Instr) (s : State) (d : RegIdx) (r : Int) (hd : i.destination = some d)
    (hi : i.mnemonic ∈ ["ADD", "SUB", "ADDI"]) : ExecEffect i s (s.commitSigned d r) := by
  rcases s.commitSigned_cases d r with ⟨-, -, h⟩ | ⟨-, h⟩ <;> rw [h]
  · exact .wrote d _ hd
  · exact .overflowed hi

/-- Every instruction ends in a next state, and its effect is one of those listed. -/
theorem exec_effect (i : Instr) (s : State) : ∃ t, exec i s = .next t ∧ ExecEffect i s t := by
  cases i with
  | add rd rs rt => exact ⟨_, rfl, .ofCommitSigned _ s rd _ rfl (by simp [Instr.mnemonic])⟩
  | sub rd rs rt => exact ⟨_, rfl, .ofCommitSigned _ s rd _ rfl (by simp [Instr.mnemonic])⟩
  | addi rt rs imm => exact ⟨_, rfl, .ofCommitSigned _ s rt _ rfl (by simp [Instr.mnemonic])⟩
  | addu rd rs rt => exact ⟨_, rfl, .wrote rd _ rfl⟩
  | subu rd rs rt => exact ⟨_, rfl, .wrote rd _ rfl⟩
  | and rd rs rt => exact ⟨_, rfl, .wrote rd _ rfl⟩
  | or rd rs rt => exact ⟨_, rfl, .wrote rd _ rfl⟩
  | xor rd rs rt => exact ⟨_, rfl, .wrote rd _ rfl⟩
  | nor rd rs rt => exact ⟨_, rfl, .wrote rd _ rfl⟩
  | addiu rt rs imm => exact ⟨_, rfl, .wrote rt _ rfl⟩
  | andi rt rs imm => exact ⟨_, rfl, .wrote rt _ rfl⟩
  | ori rt rs imm => exact ⟨_, rfl, .wrote rt _ rfl⟩
  | xori rt rs imm => exact ⟨_, rfl, .wrote rt _ rfl⟩
  | j target => exact ⟨_, rfl, .jumped target rfl⟩
  | beq rs rt imm =>
    by_cases h : s.readReg rs = s.readReg rt
    · exact ⟨_, by simp [exec, execBeq, h], .beqTaken rs rt imm rfl⟩
    · exact ⟨_, by simp [exec, execBeq, h], .notTaken rs rt imm (.inl rfl)⟩
  | bne rs rt imm =>
    by_cases h : s.readReg rs = s.readReg rt
    · exact ⟨_, by simp [exec, execBne, h], .notTaken rs rt imm (.inr rfl)⟩
    · exact ⟨_, by simp [exec, execBne, h], .bneTaken rs rt imm rfl⟩
  | lw rt imm rs =>
    by_cases h : dataInBounds (s.effectiveAddress rs imm) = true
    · exact ⟨s.commit rt (s.readData (s.effectiveAddress rs imm).toNat), by simp [exec, execLw, h], .wrote rt _ rfl⟩
    · exact ⟨_, by simp [exec, execLw, h],
        .outOfBounds rt imm rs (.inl rfl) (fun ha => h ((dataInBounds_iff _).mpr ha))⟩
  | sw rt imm rs =>
    by_cases h : dataInBounds (s.effectiveAddress rs imm) = true
    · exact ⟨_, by simp [exec, execSw, h], .stored rt imm rs rfl ((dataInBounds_iff _).mp h)⟩
    · exact ⟨_, by simp [exec, execSw, h],
        .outOfBounds rt imm rs (.inr rfl) (fun ha => h ((dataInBounds_iff _).mpr ha))⟩
  | halt => exact ⟨_, rfl, .halted rfl⟩
  | empty => exact ⟨_, rfl, .emptied rfl⟩

theorem execEffect_of_next (i : Instr) (s t : State) (h : exec i s = .next t) : ExecEffect i s t := by
  obtain ⟨t', ht', he⟩ := exec_effect i s
  rw [ht'] at h
  cases h
  exact he

/-! ## Everything a step can do -/

/-- The effects that a step from the state `s` can have. -/
inductive StepEffect (s : State) : State → Prop where
  /-- The run had ended with the halt word: nothing but the outputs changes (R90). -/
  | stillHalted (hr : s.run = .halted) : StepEffect s (s.report .halted false)
  /-- The run had ended in Empty: nothing but the outputs changes (R90). -/
  | stillEmpty (hr : s.run = .empty) : StepEffect s (s.report .empty false)
  /-- The fetch was out of range (R91). -/
  | ranOut (hr : s.run = .loaded) (hpc : 256 ≤ s.pc.toNat) : StepEffect s ((s.setRun .empty).report .empty false)
  /-- A word that is no instruction (R71, R151). -/
  | unknown (w : Word) (e : DecodeError) (hf : s.fetches w) (hd : decode w = .error e) :
      StepEffect s ({ s with pc := s.pc + 1#32 }.report (.error (.unknownInstruction w)) false)
  /-- An instruction was executed after the fetch's increment (R92, R95). -/
  | executed (w : Word) (i : Instr) (hf : s.fetches w) (hd : decode w = .ok i) (t : State)
      (he : ExecEffect i { s with pc := s.pc + 1#32 } t) : StepEffect s t

theorem step_idle (s : State) (h : s.run = .idle) : step s = .refused .stepBeforeLoad := by
  simp [step, h]

theorem step_halted (s : State) (h : s.run = .halted) : step s = .next (s.report .halted false) := by
  simp [step, h]

theorem step_empty (s : State) (h : s.run = .empty) : step s = .next (s.report .empty false) := by
  simp [step, h]

theorem fetches_unique (s : State) (v w : Word) (hv : s.fetches v) (hw : s.fetches w) : v = w :=
  hv.2.2.symm.trans hw.2.2

theorem fetches_pc_succ (s : State) (w : Word) (h : s.fetches w) : (s.pc + 1#32).toNat = s.pc.toNat + 1 := by
  have := h.2.1
  simp only [BitVec.toNat_add, BitVec.toNat_ofNat]
  omega

theorem step_fetches (s : State) (w : Word) (h : s.fetches w) :
    step s = runWord w { s with pc := s.pc + 1#32 } := by
  have hw : s.fetchWord = some w := (s.fetchWord_eq_some w).mpr ⟨h.2.1, h.2.2⟩
  simp [step, h.1, hw, State.advancePc_eq]

/-- Every step of a core that is not Idle ends in a next state, and its effect is one of those listed. -/
theorem step_effect (s : State) (h : s.run ≠ .idle) : ∃ t, step s = .next t ∧ StepEffect s t := by
  cases hr : s.run with
  | idle => exact absurd hr h
  | halted => exact ⟨_, by simp [step, hr], .stillHalted hr⟩
  | empty => exact ⟨_, by simp [step, hr], .stillEmpty hr⟩
  | loaded =>
    cases hw : s.fetchWord with
    | none => exact ⟨_, by simp [step, hr, hw], .ranOut hr ((s.fetchWord_eq_none).mp hw)⟩
    | some w =>
      have hf : s.fetches w := ⟨hr, (s.fetchWord_eq_some w).mp hw⟩
      rw [step_fetches s w hf]
      cases hd : decode w with
      | error e => exact ⟨_, by simp [runWord, hd], .unknown w e hf hd⟩
      | ok i =>
        obtain ⟨t, ht, he⟩ := exec_effect i { s with pc := s.pc + 1#32 }
        exact ⟨t, by simp [runWord, hd, ht], .executed w i hf hd t he⟩

theorem stepEffect_of_next (s t : State) (h : step s = .next t) : StepEffect s t := by
  have hr : s.run ≠ .idle := fun hr => by simp [step_idle s hr] at h
  obtain ⟨t', ht', he⟩ := step_effect s hr
  rw [ht'] at h
  cases h
  exact he

/-- The first of several steps. -/
theorem core_run_succ (k : Nat) (s t : State) (h : step s = .next t) :
    Host.Core.run core (k + 1) s = Host.Core.run core k t := by
  have h' : core.step s = .next t := h
  simp only [Host.Core.run, h']

end Sys2Proof.Machine
end

