-- ==== Sys2Proof/Laws/PerInstr.lean ====
section
/-! SUPPORT. Facts about every instruction as syntax, one lemma per constructor. -/

namespace Sys2Proof.Laws

theorem regOk_val (r : RegIdx) : WordFormat.regOk r.val = true := by
  exact decide_eq_true r.isLt

theorem immOk_toNat (i : Imm16) : WordFormat.immOk i.toNat = true := by
  exact decide_eq_true i.isLt

theorem targetOk_toNat (t : Target) : WordFormat.targetOk t.toNat = true := by
  exact decide_eq_true t.isLt

theorem wellFormed_rFormat (rs rt rd : RegIdx) (funct : Nat) (h : WordFormat.codeOk funct = true) :
    (WordFormat.rFormat rs rt rd funct).wellFormed = true := by
  simp [WordFormat.wellFormed, regOk_val, h]

theorem wellFormed_iFormat (op : Nat) (rs rt : RegIdx) (imm : Imm16) (h : WordFormat.codeOk op = true) :
    (WordFormat.iFormat op rs rt imm.toNat).wellFormed = true := by
  simp [WordFormat.wellFormed, regOk_val, immOk_toNat, h]

end Sys2Proof.Laws

/-! ## Every field of the instruction's format is within its width (R74) -/

namespace Sys2Proof.Laws.FormatWellFormed

/-- Every field of the instruction's format is within its width. -/
def Statement (i : Instr) : Prop := i.format.wellFormed = true

theorem add (rd rs rt : RegIdx) : Statement (.add rd rs rt) := wellFormed_rFormat rs rt rd _ rfl
theorem addu (rd rs rt : RegIdx) : Statement (.addu rd rs rt) := wellFormed_rFormat rs rt rd _ rfl
theorem sub (rd rs rt : RegIdx) : Statement (.sub rd rs rt) := wellFormed_rFormat rs rt rd _ rfl
theorem subu (rd rs rt : RegIdx) : Statement (.subu rd rs rt) := wellFormed_rFormat rs rt rd _ rfl
theorem and (rd rs rt : RegIdx) : Statement (.and rd rs rt) := wellFormed_rFormat rs rt rd _ rfl
theorem or (rd rs rt : RegIdx) : Statement (.or rd rs rt) := wellFormed_rFormat rs rt rd _ rfl
theorem xor (rd rs rt : RegIdx) : Statement (.xor rd rs rt) := wellFormed_rFormat rs rt rd _ rfl
theorem nor (rd rs rt : RegIdx) : Statement (.nor rd rs rt) := wellFormed_rFormat rs rt rd _ rfl
theorem j (target : Target) : Statement (.j target) := targetOk_toNat target
theorem beq (rs rt : RegIdx) (imm : Imm16) : Statement (.beq rs rt imm) := wellFormed_iFormat _ rs rt imm rfl
theorem bne (rs rt : RegIdx) (imm : Imm16) : Statement (.bne rs rt imm) := wellFormed_iFormat _ rs rt imm rfl
theorem addi (rt rs : RegIdx) (imm : Imm16) : Statement (.addi rt rs imm) := wellFormed_iFormat _ rs rt imm rfl
theorem addiu (rt rs : RegIdx) (imm : Imm16) : Statement (.addiu rt rs imm) := wellFormed_iFormat _ rs rt imm rfl
theorem andi (rt rs : RegIdx) (imm : Imm16) : Statement (.andi rt rs imm) := wellFormed_iFormat _ rs rt imm rfl
theorem ori (rt rs : RegIdx) (imm : Imm16) : Statement (.ori rt rs imm) := wellFormed_iFormat _ rs rt imm rfl
theorem xori (rt rs : RegIdx) (imm : Imm16) : Statement (.xori rt rs imm) := wellFormed_iFormat _ rs rt imm rfl
theorem lw (rt : RegIdx) (imm : Imm16) (rs : RegIdx) : Statement (.lw rt imm rs) := wellFormed_iFormat _ rs rt imm rfl
theorem sw (rt : RegIdx) (imm : Imm16) (rs : RegIdx) : Statement (.sw rt imm rs) := wellFormed_iFormat _ rs rt imm rfl
theorem halt : Statement .halt := rfl
theorem empty : Statement .empty := rfl

end Sys2Proof.Laws.FormatWellFormed
end

