-- ==== Sys2Proof/Tests/Slice0.lean ====
section
/-! SUPPORT. The model's own tests: expected values are taken from spec/95_test_vectors.md and from the worked examples of
the rules, never from the model; and one witness for the hypotheses of every statement that has any. -/

namespace Sys2Proof.Tests

open Sys2Proof Sys2Proof.Machine

/-! ## Helpers -/

/-- A loaded core whose next word, at index `c`, is `w`, with the given registers. -/
def loadedAt (c : Nat) (w : Word) (regs : List (RegIdx × Word)) : State :=
  regs.foldl (fun s r => s.writeReg r.1 r.2)
    { State.reset with run := .loaded, pc := BitVec.ofNat 32 c, imem := Memory.ofWords c [w] }

/-- The state after one step. -/
def after (s : State) : Option State :=
  match step s with
  | .next t => some t
  | .fault _ => none
  | .refused _ => none

/-- One register, the outcome and OVF after one step. -/
def result (r : RegIdx) (s : State) : Option (Word × Option StepOutcome × Bool) :=
  (after s).map fun t => (t.readReg r, t.outcome, t.ovf)

/-- `pc`, the run-state and the outcome after one step. -/
def control (s : State) : Option (Word × RunState × Option StepOutcome) :=
  (after s).map fun t => (t.pc, t.run, t.outcome)

/-- One data word, the outcome and OVF after one step. -/
def stored (a : Nat) (s : State) : Option (Word × Option StepOutcome × Bool) :=
  (after s).map fun t => (t.readData a, t.outcome, t.ovf)

/-! ## Well-formedness: an ill-formed term for each check (30_encoding.md R74) -/

theorem test_rFormat_rs_is_checked : (WordFormat.rFormat 32 0 0 0x20).wellFormed = false := by decide
theorem test_rFormat_rt_is_checked : (WordFormat.rFormat 0 32 0 0x20).wellFormed = false := by decide
theorem test_rFormat_rd_is_checked : (WordFormat.rFormat 0 0 32 0x20).wellFormed = false := by decide
theorem test_rFormat_funct_is_checked : (WordFormat.rFormat 0 0 0 64).wellFormed = false := by decide
theorem test_iFormat_op_is_checked : (WordFormat.iFormat 64 0 0 0).wellFormed = false := by decide
theorem test_iFormat_rs_is_checked : (WordFormat.iFormat 0x08 32 0 0).wellFormed = false := by decide
theorem test_iFormat_rt_is_checked : (WordFormat.iFormat 0x08 0 32 0).wellFormed = false := by decide
theorem test_iFormat_imm_is_checked : (WordFormat.iFormat 0x08 0 0 65536).wellFormed = false := by decide
theorem test_jFormat_target_is_checked : (WordFormat.jFormat 67108864).wellFormed = false := by decide
theorem test_sentinel_is_checked : (WordFormat.sentinel 4294967296).wellFormed = false := by decide
theorem test_wellFormed_accepts_the_largest_fields :
    (WordFormat.rFormat 31 31 31 63).wellFormed = true ∧ (WordFormat.iFormat 63 31 31 65535).wellFormed = true ∧
      (WordFormat.jFormat 67108863).wellFormed = true ∧ (WordFormat.sentinel 4294967295).wellFormed = true := by decide

/-! ## Decoding: every constructor, its word written out field by field from R66 (operands of 95_test_vectors.md S1) -/

theorem test_decode_add :
    decode (0b000000#6 ++ 0b00001#5 ++ 0b00010#5 ++ 0b00011#5 ++ 0b00000#5 ++ 0b100000#6) = .ok (.add 3 1 2) := by decide
theorem test_decode_addu :
    decode (0b000000#6 ++ 0b00010#5 ++ 0b00011#5 ++ 0b00001#5 ++ 0b00000#5 ++ 0b100001#6) = .ok (.addu 1 2 3) := by decide
theorem test_decode_sub :
    decode (0b000000#6 ++ 0b00001#5 ++ 0b00010#5 ++ 0b00011#5 ++ 0b00000#5 ++ 0b100010#6) = .ok (.sub 3 1 2) := by decide
theorem test_decode_subu :
    decode (0b000000#6 ++ 0b00001#5 ++ 0b00010#5 ++ 0b00011#5 ++ 0b00000#5 ++ 0b100011#6) = .ok (.subu 3 1 2) := by decide
theorem test_decode_and :
    decode (0b000000#6 ++ 0b00001#5 ++ 0b00010#5 ++ 0b00011#5 ++ 0b00000#5 ++ 0b100100#6) = .ok (.and 3 1 2) := by decide
theorem test_decode_or :
    decode (0b000000#6 ++ 0b00001#5 ++ 0b00010#5 ++ 0b00011#5 ++ 0b00000#5 ++ 0b100101#6) = .ok (.or 3 1 2) := by decide
theorem test_decode_xor :
    decode (0b000000#6 ++ 0b00001#5 ++ 0b00010#5 ++ 0b00011#5 ++ 0b00000#5 ++ 0b100110#6) = .ok (.xor 3 1 2) := by decide
theorem test_decode_nor :
    decode (0b000000#6 ++ 0b11110#5 ++ 0b11101#5 ++ 0b11111#5 ++ 0b00000#5 ++ 0b100111#6) = .ok (.nor 31 30 29) := by decide
theorem test_decode_j :
    decode (0b000010#6 ++ 0b11111111111111111111111111#26) = .ok (.j 0x3FFFFFF#26) := by decide
theorem test_decode_beq :
    decode (0b000100#6 ++ 0b00011#5 ++ 0b00100#5 ++ 0b1111111111111100#16) = .ok (.beq 3 4 0xFFFC#16) := by decide
theorem test_decode_bne :
    decode (0b000101#6 ++ 0b00001#5 ++ 0b00000#5 ++ 0b1111111111111101#16) = .ok (.bne 1 0 0xFFFD#16) := by decide
theorem test_decode_addi :
    decode (0b001000#6 ++ 0b00000#5 ++ 0b00001#5 ++ 0b0000000000000101#16) = .ok (.addi 1 0 0x0005#16) := by decide
theorem test_decode_addiu :
    decode (0b001001#6 ++ 0b00000#5 ++ 0b00001#5 ++ 0b1111111111111000#16) = .ok (.addiu 1 0 0xFFF8#16) := by decide
theorem test_decode_andi :
    decode (0b001100#6 ++ 0b00010#5 ++ 0b00011#5 ++ 0b1111111100000000#16) = .ok (.andi 3 2 0xFF00#16) := by decide
theorem test_decode_ori :
    decode (0b001101#6 ++ 0b00010#5 ++ 0b00011#5 ++ 0b1000000000000000#16) = .ok (.ori 3 2 0x8000#16) := by decide
theorem test_decode_xori :
    decode (0b001110#6 ++ 0b00100#5 ++ 0b00101#5 ++ 0b1111111111111111#16) = .ok (.xori 5 4 0xFFFF#16) := by decide
theorem test_decode_lw :
    decode (0b100011#6 ++ 0b00001#5 ++ 0b00100#5 ++ 0b0000000000000000#16) = .ok (.lw 4 0x0000#16 1) := by decide
theorem test_decode_sw :
    decode (0b101011#6 ++ 0b00001#5 ++ 0b00011#5 ++ 0b0000000000000000#16) = .ok (.sw 3 0x0000#16 1) := by decide
theorem test_decode_halt : decode (0b11111111111111111111111111111111#32) = .ok .halt := by decide
theorem test_decode_empty : decode (0b00000000000000000000000000000000#32) = .ok .empty := by decide
/-- 95_test_vectors.md 2.1: bits 10 to 6 all ones. -/
theorem test_decode_ignores_bits_10_to_6 : decode 0x00221FE0#32 = .ok (.add 3 1 2) := by decide
/-- 95_test_vectors.md 2.6: one below ADD, one above NOR, and the neighbours of both sentinels. -/
theorem test_decode_rejects_unknown_functions :
    decode 0x0000001F#32 = .error (.unknownFunction 0x1F#6) ∧ decode 0x00000028#32 = .error (.unknownFunction 0x28#6) ∧
      decode 0x00000040#32 = .error (.unknownFunction 0x00#6) := by decide
theorem test_decode_rejects_unknown_opcodes :
    decode 0x04000000#32 = .error (.unknownOpcode 0x01#6) ∧ decode 0x3C011234#32 = .error (.unknownOpcode 0x0F#6) ∧
      decode 0xFFFFFFFE#32 = .error (.unknownOpcode 0x3F#6) := by decide
/-- 95_test_vectors.md S1: the words of the assembly column. -/
theorem test_encode_gives_the_words_of_S1 :
    encode (.addu 1 2 3) = 0x00430821#32 ∧ encode (.j 8#26) = 0x08000008#32 ∧
      encode (.bne 1 0 0xFFFD#16) = 0x1420FFFD#32 ∧ encode (.sw 3 0x0000#16 1) = 0xAC230000#32 ∧
      encode .halt = 0xFFFFFFFF#32 := by decide
theorem test_decodeTableWord : decodeTableWord 32 0x20010005 = some (.addi 1 0 0x0005#16) := by decide

/-! ## One step of each instruction (95_test_vectors.md part 2) -/

theorem test_add_largest_sum : result 3 (loadedAt 0 0x00221820#32 [(1, 0x40000000#32), (2, 0x3FFFFFFF#32), (3, 0xAAAAAAAA#32)]) = some (0x7FFFFFFF#32, some .continued, false) := by
  decide
theorem test_add_overflow_keeps_destination : result 3 (loadedAt 0 0x00221820#32 [(1, 0x80000000#32), (2, 0xFFFFFFFF#32), (3, 0xAAAAAAAA#32)]) = some (0xAAAAAAAA#32, some .continued, true) := by
  decide
theorem test_addu_wraps : result 3 (loadedAt 0 0x00221821#32 [(1, 0xFFFFFFFF#32), (2, 0x00000001#32), (3, 0xAAAAAAAA#32)]) = some (0x00000000#32, some .continued, false) := by
  decide
theorem test_addu_never_reports : result 3 (loadedAt 0 0x00221821#32 [(1, 0x7FFFFFFF#32), (2, 0x00000001#32), (3, 0xAAAAAAAA#32)]) = some (0x80000000#32, some .continued, false) := by
  decide
theorem test_sub_is_rs_minus_rt : result 3 (loadedAt 0 0x00221822#32 [(1, 0x00000005#32), (2, 0x0000000A#32), (3, 0xAAAAAAAA#32)]) = some (0xFFFFFFFB#32, some .continued, false) := by
  decide
theorem test_sub_overflow_keeps_destination : result 3 (loadedAt 0 0x00221822#32 [(1, 0x00000000#32), (2, 0x80000000#32), (3, 0xAAAAAAAA#32)]) = some (0xAAAAAAAA#32, some .continued, true) := by
  decide
theorem test_subu_wraps : result 3 (loadedAt 0 0x00221823#32 [(1, 0x00000000#32), (2, 0x00000001#32), (3, 0xAAAAAAAA#32)]) = some (0xFFFFFFFF#32, some .continued, false) := by
  decide
theorem test_subu_never_reports : result 3 (loadedAt 0 0x00221823#32 [(1, 0x80000000#32), (2, 0x00000001#32), (3, 0xAAAAAAAA#32)]) = some (0x7FFFFFFF#32, some .continued, false) := by
  decide
theorem test_and : result 3 (loadedAt 0 0x00221824#32 [(1, 0xFF00FF00#32), (2, 0x0FF00FF0#32), (3, 0xAAAAAAAA#32)]) = some (0x0F000F00#32, some .continued, false) := by
  decide
theorem test_or : result 3 (loadedAt 0 0x00221825#32 [(1, 0xFF00FF00#32), (2, 0x0FF00FF0#32), (3, 0xAAAAAAAA#32)]) = some (0xFFF0FFF0#32, some .continued, false) := by
  decide
theorem test_xor : result 3 (loadedAt 0 0x00221826#32 [(1, 0xFF00FF00#32), (2, 0x0FF00FF0#32), (3, 0xAAAAAAAA#32)]) = some (0xF0F0F0F0#32, some .continued, false) := by
  decide
theorem test_nor : result 3 (loadedAt 0 0x00221827#32 [(1, 0xFF00FF00#32), (2, 0x0FF00FF0#32), (3, 0xAAAAAAAA#32)]) = some (0x000F000F#32, some .continued, false) := by
  decide
theorem test_add_reads_before_it_writes : result 1 (loadedAt 0 0x00210820#32 [(1, 0x3FFFFFFF#32)]) = some (0x7FFFFFFE#32, some .continued, false) := by
  decide
theorem test_xor_writes_register_0 : result 0 (loadedAt 0 0x00000026#32 [(0, 0x00001234#32)]) = some (0x00000000#32, some .continued, false) := by
  decide
theorem test_addi_last_sum_that_fits : result 3 (loadedAt 0 0x20437FFF#32 [(2, 0x7FFF8000#32), (3, 0xAAAAAAAA#32)]) = some (0x7FFFFFFF#32, some .continued, false) := by
  decide
theorem test_addi_first_sum_that_overflows : result 3 (loadedAt 0 0x20438000#32 [(2, 0x80007FFF#32), (3, 0xAAAAAAAA#32)]) = some (0xAAAAAAAA#32, some .continued, true) := by
  decide
theorem test_addiu_sign_extends : result 3 (loadedAt 0 0x2443FFF8#32 [(2, 0x00000007#32), (3, 0xAAAAAAAA#32)]) = some (0xFFFFFFFF#32, some .continued, false) := by
  decide
theorem test_addiu_never_reports : result 3 (loadedAt 0 0x24430001#32 [(2, 0x7FFFFFFF#32), (3, 0xAAAAAAAA#32)]) = some (0x80000000#32, some .continued, false) := by
  decide
theorem test_andi_keeps_the_upper_half : result 3 (loadedAt 0 0x3043FF00#32 [(2, 0x12345678#32), (3, 0xAAAAAAAA#32)]) = some (0x12345600#32, some .continued, false) := by
  decide
theorem test_andi_clears_the_upper_half : result 3 (loadedAt 0 0x304300FF#32 [(2, 0x12345678#32), (3, 0xAAAAAAAA#32)]) = some (0x00000078#32, some .continued, false) := by
  decide
theorem test_ori_sets_the_upper_half : result 3 (loadedAt 0 0x34438000#32 [(2, 0x00000000#32), (3, 0xAAAAAAAA#32)]) = some (0xFFFF8000#32, some .continued, false) := by
  decide
theorem test_ori_low_half : result 3 (loadedAt 0 0x34435678#32 [(2, 0x12340000#32), (3, 0xAAAAAAAA#32)]) = some (0x12345678#32, some .continued, false) := by
  decide
theorem test_xori_complements : result 3 (loadedAt 0 0x3843FFFF#32 [(2, 0x00000001#32), (3, 0xAAAAAAAA#32)]) = some (0xFFFFFFFE#32, some .continued, false) := by
  decide
theorem test_xori_low_half : result 3 (loadedAt 0 0x38435678#32 [(2, 0x12345678#32), (3, 0xAAAAAAAA#32)]) = some (0x12340000#32, some .continued, false) := by
  decide
theorem test_j_is_absolute : control (loadedAt 6 0x08000008#32 []) = some (0x00000008#32, .loaded, some .continued) := by decide
theorem test_j_has_26_bits : control (loadedAt 3 0x0BFFFFFF#32 []) = some (0x03FFFFFF#32, .loaded, some .continued) := by decide
theorem test_beq_is_not_sign_extended : control (loadedAt 5 0x1064FFFC#32 [(3, 0x0000000F#32), (4, 0x0000000F#32)]) = some (0x00010002#32, .loaded, some .continued) := by decide
theorem test_beq_not_taken : control (loadedAt 1 0x10220001#32 [(1, 0x00000007#32), (2, 0x00000008#32)]) = some (0x00000002#32, .loaded, some .continued) := by decide
theorem test_bne_is_sign_extended : control (loadedAt 4 0x1420FFFD#32 [(1, 0x00000004#32)]) = some (0x00000002#32, .loaded, some .continued) := by decide
theorem test_bne_wraps_below_zero : control (loadedAt 1 0x1420FFFC#32 [(1, 0x00000001#32)]) = some (0xFFFFFFFE#32, .loaded, some .continued) := by decide
theorem test_halt_word_at_the_last_index : control (loadedAt 255 0xFFFFFFFF#32 []) = some (0x00000100#32, .halted, some .halted) := by decide
theorem test_zero_word : control (loadedAt 1 0x00000000#32 []) = some (0x00000002#32, .empty, some .empty) := by decide

/-- The base is signed: -1 + 1024 is word 1023. -/
theorem test_lw_base_is_signed :
    result 3 { loadedAt 0 0x8C430400#32 [(2, 0xFFFFFFFF#32)] with dmem := [(1023, 0xDEADBEEF#32)] } =
      some (0xDEADBEEF#32, some .continued, false) := by decide
/-- Address -1 is not word 1023 (decision D11). -/
theorem test_lw_negative_address_raises :
    result 3 { loadedAt 0 0x8C03FFFF#32 [(3, 0xAAAAAAAA#32)] with dmem := [(1023, 0xDEADBEEF#32)] } =
      some (0xAAAAAAAA#32, some (.error (.dataAddressOutOfBounds (-1))), false) := by decide
theorem test_sw_last_word :
    stored 1023 (loadedAt 0 0xAC0203FF#32 [(2, 0xFFFFFFFF#32)]) = some (0xFFFFFFFF#32, some .continued, false) := by
  decide
theorem test_sw_first_address_out_of_bounds :
    stored 1023 (loadedAt 0 0xAC020400#32 [(2, 0xFFFFFFFF#32)]) =
      some (0x00000000#32, some (.error (.dataAddressOutOfBounds 1024)), false) := by decide

/-! ## Fetch, errors, run-states, load -/

theorem test_fetch_out_of_range : control (loadedAt 256 0x00000000#32 []) = some (0x00000100#32, .empty, some .empty) := by
  decide
theorem test_unknown_word :
    control (loadedAt 0 0x3C011234#32 []) =
      some (0x00000001#32, .loaded, some (.error (.unknownInstruction 0x3C011234#32))) := by decide
theorem test_step_when_halted :
    control { loadedAt 7 0x20010005#32 [] with run := .halted } = some (0x00000007#32, .halted, some .halted) := by decide
theorem test_step_before_load : after State.reset = none := by decide
theorem test_load_truncates : loadDropped (List.replicate 300 0x24210001#32) = 44 := by
  rw [loadDropped, List.length_replicate]; rfl
/-- 95_test_vectors.md 2.7, reload of a shorter program: the old words are gone. -/
theorem test_reload_clears_the_old_words :
    (State.load [0x20040001#32] (State.load [0x20010005#32, 0x20020006#32] State.reset)).imem = [(0, 0x20040001#32)] := by
  decide
theorem test_withFetchWord_runs_the_word :
    result 1 (State.reset.withFetchWord 32 0x20010005) = some (0x00000005#32, some .continued, false) := by decide
theorem test_memory_write_of_zero_unlists : Memory.write [(4, 0x00000007#32)] 4 0x00000000#32 = [] := by decide

/-! ## Witnesses: a state and operands that meet the hypotheses of each statement that has any -/

theorem witness_UnknownWordsAreThoseOutsideTheTable :
    (∀ row ∈ opcodeTable, row.hits 0x3C011234#32 = false) ∧ (loadedAt 0 0x3C011234#32 []).fetches 0x3C011234#32 :=
  ⟨by decide, rfl, by decide, by decide⟩
/-- An R-format word with bits 10 to 6 set, and an I-format word. -/
theorem witness_EncodeRecoversTheWord :
    decode 0x00221FE0#32 = .ok (.add 3 1 2) ∧ (0x00221FE0#32).extractLsb' 26 6 = 0x00#6 ∧
      decode 0x1064FFFC#32 = .ok (.beq 3 4 0xFFFC#16) ∧ (0x1064FFFC#32).extractLsb' 26 6 ≠ 0x00#6 := by decide
theorem witness_IgnoredBitsDoNotMatter :
    0x00221FE0#32 &&& 0xFFFFF83F#32 = 0x00221820#32 &&& 0xFFFFF83F#32 ∧ (0x00221FE0#32).extractLsb' 26 6 = 0x00#6 ∧
      0x00221FE0#32 ≠ 0x00000000#32 ∧ 0x00221820#32 ≠ 0x00000000#32 := by decide
theorem witness_DecodeEncodeRoundTrip :
    (Instr.format (.sw 31 0xFFFF#16 31)).wellFormed = true ∧ (WordFormat.iFormat 63 31 31 65535).wellFormed = true ∧
      (WordFormat.rFormat 31 31 31 63).wellFormed = true ∧ (WordFormat.jFormat 67108863).wellFormed = true := by decide
/-- One word of each row of R66. -/
theorem witness_EveryTableRowDecodesItsWords :
    ∀ row ∈ opcodeTable, row.hits (row.pattern ||| (0x001FF800#32 &&& ~~~row.mask)) = true := by decide
theorem witness_StepRunsTheDecodedInstruction :
    (loadedAt 255 0x00221820#32 []).fetches 0x00221820#32 ∧ decode 0x00221820#32 = .ok (.add 3 1 2) :=
  ⟨⟨rfl, by decide, by decide⟩, by decide⟩
theorem witness_StepAnswersUnlessIdle : State.reset.run = .idle ∧ (loadedAt 0 0x00221820#32 []).run ≠ .idle := by decide
theorem witness_FetchOutOfRangeEndsTheRun :
    (loadedAt 256 0x00000000#32 []).run = .loaded ∧ 255 < (loadedAt 256 0x00000000#32 []).pc.toNat := by decide
theorem witness_HaltedAndEmptyAreTerminal :
    ({ State.reset with run := .halted } : State).run = .halted ∧ ({ State.reset with run := .empty } : State).run = .empty :=
  ⟨rfl, rfl⟩
/-- A step from each run-state and of each kind of word: the clauses of the table one by one. -/
theorem witness_RunStateTransitions :
    (∃ t, step { State.reset with run := .halted } = .next t) ∧ (∃ t, step { State.reset with run := .empty } = .next t) ∧
      (∃ t, step (loadedAt 256 0x00000000#32 []) = .next t) ∧
      (∃ t, step (loadedAt 255 0xFFFFFFFF#32 []) = .next t) ∧ (∃ t, step (loadedAt 255 0x00000000#32 []) = .next t) ∧
      (∃ t, step (loadedAt 0 0x3C011234#32 []) = .next t) :=
  ⟨⟨_, rfl⟩, ⟨_, rfl⟩, ⟨_, rfl⟩, ⟨_, rfl⟩, ⟨_, rfl⟩, ⟨_, rfl⟩⟩
theorem witness_SentinelWordsEndTheRunForGood :
    (loadedAt 255 0xFFFFFFFF#32 []).fetches 0xFFFFFFFF#32 ∧ (loadedAt 255 0x00000000#32 []).fetches 0x00000000#32 :=
  ⟨⟨rfl, by decide, by decide⟩, ⟨rfl, by decide, by decide⟩⟩
theorem witness_ConstantsFromTheImmediate : State.reset.readReg 0 = 0x00000000#32 := by decide
/-- A BNE taken from index 4 to index 2, and a BEQ taken with bit 15 of its field set. -/
theorem witness_TakenBranchLanding :
    (loadedAt 4 0x1420FFFD#32 [(1, 4#32)]).fetches 0x1420FFFD#32 ∧ decode 0x1420FFFD#32 = .ok (.bne 1 0 0xFFFD#16) ∧
      (loadedAt 4 0x1420FFFD#32 [(1, 4#32)]).readReg 1 ≠ (loadedAt 4 0x1420FFFD#32 [(1, 4#32)]).readReg 0 ∧
      (2 : Int) - 4 - 1 = (0xFFFD#16).toInt ∧
      (loadedAt 0 0x10008000#32 []).fetches 0x10008000#32 ∧ decode 0x10008000#32 = .ok (.beq 0 0 0x8000#16) ∧
      2 ^ 15 ≤ (0x8000#16).toNat :=
  ⟨⟨rfl, by decide, by decide⟩, by decide, by decide, by decide, ⟨rfl, by decide, by decide⟩, by decide, by decide⟩
theorem witness_OnlyJumpsAndBranchesMovePc :
    (loadedAt 6 0x08000000#32 []).fetches 0x08000000#32 ∧
      ∃ t, step (loadedAt 6 0x08000000#32 []) = .next t ∧ t.pc ≠ (loadedAt 6 0x08000000#32 []).pc + 1#32 :=
  ⟨⟨rfl, by decide, by decide⟩, _, rfl, by decide⟩
theorem witness_SelfJumpRunsForever :
    (loadedAt 255 (encode (.j 255#26)) []).fetches (encode (.j 255#26)) ∧
      (255#26).toNat = (loadedAt 255 (encode (.j 255#26)) []).pc.toNat :=
  ⟨⟨rfl, by decide, by decide⟩, by decide⟩
/-- Not taken: the two registers hold the same pattern (R127, the worked example with `x[1] = 0`). -/
theorem witness_BneAddsSignedOffset :
    control (loadedAt 4 0x1420FFFD#32 []) = some (0x00000005#32, .loaded, some .continued) := by decide
/-- The addresses where the clauses meet: the base of `LW` and `SW` is -1, the sums are -1, 0, 1023 and 1024. -/
theorem witness_LwLoadsInBoundsOrRaises :
    (loadedAt 0 0#32 [(2, 0xFFFFFFFF#32)]).effectiveAddress 2 0x0000#16 = -1 ∧
      (loadedAt 0 0#32 [(2, 0xFFFFFFFF#32)]).effectiveAddress 2 0x0001#16 = 0 ∧
      (loadedAt 0 0#32 [(2, 0xFFFFFFFF#32)]).effectiveAddress 2 0x0400#16 = 1023 ∧
      (loadedAt 0 0#32 [(2, 0xFFFFFFFF#32)]).effectiveAddress 2 0x0401#16 = 1024 := by decide
/-- Two registers that hold -1 and 0, with offsets that meet at word 1023, and at 1024. -/
theorem witness_StoreThenLoadReturnsTheValue :
    ((loadedAt 0 0#32 [(2, 0xFFFFFFFF#32)]).readReg 2).toInt + (1024#16).toInt =
        ((loadedAt 0 0#32 [(2, 0xFFFFFFFF#32)]).readReg 0).toInt + (1023#16).toInt ∧
      ((loadedAt 0 0#32 [(2, 0xFFFFFFFF#32)]).readReg 2).toInt + (1025#16).toInt =
        ((loadedAt 0 0#32 [(2, 0xFFFFFFFF#32)]).readReg 0).toInt + (1024#16).toInt := by decide
theorem witness_CanonicalMemoriesThatReadAlikeAreEqual :
    Memory.wf 1024 [(5, 0x0000000F#32), (1023, 0xFFFFFFFF#32)] = true ∧
      Memory.wf 1024 (Memory.write [(1023, 0xFFFFFFFF#32)] 5 0x0000000F#32) = true := by decide
theorem witness_OverflowIsReportedOnlyByAddSubAddi :
    ∃ t, step (loadedAt 0 0x00211020#32 [(1, 0x7FFFFFFF#32)]) = .next t ∧ t.ovf = true := ⟨_, rfl, by decide⟩
/-- An unknown word, and a store at address -1. -/
theorem witness_ErrorsArePrecise :
    (∃ t, step (loadedAt 0 0x3C011234#32 []) = .next t ∧
        t.outcome = some (.error (.unknownInstruction 0x3C011234#32))) ∧
      ∃ t, step (loadedAt 0 0xAC02FFFF#32 []) = .next t ∧ t.outcome = some (.error (.dataAddressOutOfBounds (-1))) :=
  ⟨⟨_, rfl, by decide⟩, ⟨_, rfl, by decide⟩⟩
/-- A store that changes word 1023, and an ADDI that changes register 1. -/
theorem witness_StepChangesOnlyWhatTheInstructionNames :
    (∃ t, step (loadedAt 0 0xAC0203FF#32 [(2, 1#32)]) = .next t ∧
        t.readData 1023 ≠ (loadedAt 0 0xAC0203FF#32 [(2, 1#32)]).readData 1023) ∧
      ∃ t, step (loadedAt 0 0x20010005#32 []) = .next t ∧ t.readReg 1 ≠ (loadedAt 0 0x20010005#32 []).readReg 1 :=
  ⟨⟨_, rfl, by decide⟩, ⟨_, rfl, by decide⟩⟩
theorem witness_DataWordKeepsItsValueUntilStored :
    ∃ t, Host.Core.run core 2 (loadedAt 0 0xAC0203FF#32 [(2, 1#32)]) = .next t ∧
      State.readData 1023 t ≠ (loadedAt 0 0xAC0203FF#32 [(2, 1#32)]).readData 1023 := ⟨_, rfl, by decide⟩
theorem witness_UnnamedRegistersPlayNoPart :
    (4 : RegIdx) ∉ (Instr.add 3 1 2).sources ∧ (Instr.add 3 1 2).destination ≠ some 4 ∧
      ∃ t, exec (.add 3 1 2) State.reset = .next t := ⟨by decide, by decide, _, rfl⟩
theorem witness_FirstStepAfterLoad : decode 0x20010005#32 = .ok (.addi 1 0 0x0005#16) := by decide
theorem witness_TransactionsAnswer : State.reset.run = .idle ∧ (State.load [] State.reset).run ≠ .idle := by decide
/-- A loaded core with a program and a data word meets the invariant, and its step answers. -/
theorem witness_StepKeepsTheInvariant :
    State.Inv { State.load [0xAC0203FF#32, 0xFFFFFFFF#32] State.reset with dmem := [(1023, 0x00000001#32)] } ∧
      ∃ t, step { State.load [0xAC0203FF#32, 0xFFFFFFFF#32] State.reset with dmem := [(1023, 0x00000001#32)] } = .next t :=
  ⟨⟨by decide, .inl (by decide), by simp [State.ovfOnlyContinued, State.load], by simp [State.runAgrees, State.load]⟩, _, rfl⟩
/-- A halted core meets the invariant that `load` keeps. -/
theorem witness_LoadKeepsTheInvariant :
    State.Inv { State.reset with run := .halted, pc := 256#32, imem := [(255, 0xFFFFFFFF#32)], outcome := some .halted } :=
  ⟨by decide, .inl (by decide), by simp [State.ovfOnlyContinued, State.reset], rfl, by decide, by decide, by decide⟩

end Sys2Proof.Tests
end

section
/-! SUPPORT. What a step does to the run-state, the outputs, the registers and the memories, read off the lists of
effects (`ExecEffect`, `StepEffect`); and that an instruction depends neither on the outputs of an earlier step nor on
a register it does not name. -/

namespace Sys2Proof.Machine

/-! ## What the effect of an instruction leaves unchanged -/

theorem ExecEffect.imem_eq {i : Instr} {s t : State} (h : ExecEffect i s t) : t.imem = s.imem := by
  cases h <;> rfl

/-- A register that changed is the destination (10_state.md R21). -/
theorem ExecEffect.destination_of_readReg_ne {i : Instr} {s t : State} (h : ExecEffect i s t) {r : RegIdx}
    (hr : t.readReg r ≠ s.readReg r) : i.destination = some r := by
  cases h with
  | wrote d v hd =>
    have hrd : r = d := by
      by_contra hne
      exact hr (by simp [hne])
    rw [hrd, hd]
  | _ => exact absurd rfl hr

/-- A data word that changed stands at the in-bounds address of an SW (20_memory.md R52). -/
theorem ExecEffect.sw_of_readData_ne {i : Instr} {s t : State} (h : ExecEffect i s t) {a : Nat}
    (ha : t.readData a ≠ s.readData a) :
    ∃ rt imm rs, i = .sw rt imm rs ∧ (a : Int) = s.effectiveAddress rs imm ∧ a ≤ 1023 := by
  cases h with
  | stored rt imm rs hi hb =>
    have haddr : a = (s.effectiveAddress rs imm).toNat := by
      by_contra hne
      exact ha (by simp [State.readData_eq, hne])
    exact ⟨rt, imm, rs, hi, by omega, by omega⟩
  | _ => exact absurd rfl ha

/-- OVF is the report of ADD, SUB and ADDI, and comes with no other change (10_state.md R28). -/
theorem ExecEffect.eq_report_of_ovf {i : Instr} {s t : State} (h : ExecEffect i s t) (hv : t.ovf = true) :
    i.mnemonic ∈ ["ADD", "SUB", "ADDI"] ∧ t = s.report .continued true := by
  cases h with
  | overflowed hi => exact ⟨hi, rfl⟩
  | _ => exact absurd hv Bool.false_ne_true

/-- Only the two sentinels end a run (10_state.md R31). -/
theorem ExecEffect.run_eq_of_ne_sentinel {i : Instr} {s t : State} (h : ExecEffect i s t) (hh : i ≠ .halt)
    (he : i ≠ .empty) : t.run = s.run ∧ (t.outcome = some .continued ∨ ∃ e, t.returned (.error e) false) := by
  cases h with
  | outOfBounds => exact ⟨rfl, .inr ⟨_, rfl, rfl⟩⟩
  | halted hi => exact absurd hi hh
  | emptied hi => exact absurd hi he
  | _ => exact ⟨rfl, .inl rfl⟩

/-! ## What a step can do, by whether it executes an instruction -/

/-- A step that executes no instruction changes no register and no memory word, and reports no overflow. -/
theorem StepEffect.executed_or_unchanged {s t : State} (h : StepEffect s t) :
    (∃ w i, s.fetches w ∧ decode w = .ok i ∧ ExecEffect i { s with pc := s.pc + 1#32 } t) ∨
    (s.sameRegs t ∧ s.sameData t ∧ t.imem = s.imem ∧ t.ovf = false) := by
  cases h with
  | executed w i hf hd t he => exact .inl ⟨w, i, hf, hd, he⟩
  | _ => exact .inr ⟨fun _ => rfl, fun _ => rfl, rfl, rfl⟩

/-- A fetch beyond index 255 ends the run in Empty (40_fetch_step.md R91). -/
theorem step_fetchOutOfRange (s : State) (hr : s.run = .loaded) (hpc : 255 < s.pc.toNat) :
    step s = .next ((s.setRun .empty).report .empty false) := by
  have hw : s.fetchWord = none := s.fetchWord_eq_none.mpr hpc
  simp [step, hr, hw]

/-- A step that fetches a word which decodes executes that instruction, with `pc` incremented (R92, R95). -/
theorem step_executes {s : State} {w : Word} {i : Instr} (hf : s.fetches w) (hd : decode w = .ok i) :
    step s = exec i { s with pc := s.pc + 1#32 } := by
  simp [step_fetches s w hf, runWord, hd]

/-- A word that is no sentinel keeps the run going, an unknown word included (R31, decision D7). -/
theorem StepEffect.run_loaded_of_ne_sentinel {s t : State} (h : StepEffect s t) {w : Word} (hf : s.fetches w)
    (h1 : w ≠ 0xFFFFFFFF#32) (h0 : w ≠ 0x00000000#32) :
    t.run = .loaded ∧ (t.outcome = some .continued ∨ ∃ e, t.returned (.error e) false) := by
  have ⟨hrun, hpc, _⟩ := hf
  cases h with
  | stillHalted hr => simp [hr] at hrun
  | stillEmpty hr => simp [hr] at hrun
  | ranOut _ hout => omega
  | unknown => exact ⟨hrun, .inr ⟨_, rfl, rfl⟩⟩
  | executed w' i hf' hd t he =>
    cases fetches_unique s w' w hf' hf
    have hkept := he.run_eq_of_ne_sentinel (fun hi => h1 ((decode_eq_halt w).mp (hi ▸ hd)))
      (fun hi => h0 ((decode_eq_empty w).mp (hi ▸ hd)))
    exact ⟨hkept.1.trans hrun, hkept.2⟩

/-! ## The outputs of an earlier step -/

theorem State.branch_withOutputs (c : Prop) [Decidable c] (d : Int) (s : State) (o : Option StepOutcome) (v : Bool) :
    (if c then State.jumpBy d { s with outcome := o, ovf := v } else { s with outcome := o, ovf := v }).continued =
      (if c then s.jumpBy d else s).continued := by
  split <;> rfl

/-- Every instruction overwrites both outputs and reads neither. Only the branches choose between two states before
they report; every other arm is the same term on both sides. -/
theorem exec_withOutputs (i : Instr) (s : State) (o : Option StepOutcome) (v : Bool) :
    exec i { s with outcome := o, ovf := v } = exec i s := by
  cases i with
  | beq rs rt imm =>
    exact congrArg Host.Outcome.next (State.branch_withOutputs (s.readReg rs = s.readReg rt) (beqOffset imm) s o v)
  | bne rs rt imm =>
    exact congrArg Host.Outcome.next (State.branch_withOutputs (s.readReg rs ≠ s.readReg rt) (bneOffset imm) s o v)
  | _ => rfl

theorem runWord_withOutputs (w : Word) (s : State) (o : Option StepOutcome) (v : Bool) :
    runWord w { s with outcome := o, ovf := v } = runWord w s := by
  unfold runWord
  cases decode w with
  | ok i => exact exec_withOutputs i s o v
  | error e => rfl

/-! ## A register the instruction does not name -/

theorem State.commit_writeReg {d q : RegIdx} (h : d ≠ q) (w v : Word) (s : State) :
    (s.writeReg q v).commit d w = (s.commit d w).writeReg q v :=
  congrArg State.continued (State.writeReg_comm d q v w s h)

theorem State.commitSigned_writeReg {d q : RegIdx} (h : d ≠ q) (r : Int) (v : Word) (s : State) :
    (s.writeReg q v).commitSigned d r = (s.commitSigned d r).writeReg q v := by
  unfold State.commitSigned
  split
  · exact State.commit_writeReg h (trunc32 r) v s
  · rfl

theorem State.branch_writeReg (c : Prop) [Decidable c] (d : Int) (q : RegIdx) (v : Word) (s : State) :
    (if c then (s.writeReg q v).jumpBy d else s.writeReg q v).continued =
      (if c then s.jumpBy d else s).continued.writeReg q v := by
  split <;> rfl

theorem State.effectiveAddress_writeReg_ne {rs q : RegIdx} (h : rs ≠ q) (imm : Imm16) (v : Word) (s : State) :
    (s.writeReg q v).effectiveAddress rs imm = s.effectiveAddress rs imm := by
  simp only [State.effectiveAddress, State.readReg_writeReg_ne rs q v s h]

/-- Writing a register that the instruction does not name commutes with executing it: its sources read as before, and
the write commutes with the write of its destination. -/
theorem exec_writeReg {i : Instr} {s t : State} {q : RegIdx} (hs : q ∉ i.sources) (hd : i.destination ≠ some q)
    (v : Word) (ht : exec i s = .next t) : exec i (s.writeReg q v) = .next (t.writeReg q v) := by
  have hsrc : ∀ r ∈ i.sources, r ≠ q := fun r hr h => hs (h ▸ hr)
  have hread : ∀ r ∈ i.sources, (s.writeReg q v).readReg r = s.readReg r := fun r hr =>
    State.readReg_writeReg_ne r q v s (hsrc r hr)
  have hdest : ∀ d, i.destination = some d → d ≠ q := fun d hi h => hd (h ▸ hi)
  cases i with
  | add rd rs rt | addu rd rs rt | sub rd rs rt | subu rd rs rt | and rd rs rt | or rd rs rt | xor rd rs rt
  | nor rd rs rt =>
    cases ht
    simp only [exec, execAdd, execAddu, execSub, execSubu, execAnd, execOr, execXor, execNor,
      hread rs (by simp [Instr.sources]), hread rt (by simp [Instr.sources]),
      State.commit_writeReg (hdest rd rfl), State.commitSigned_writeReg (hdest rd rfl)]
  | addi rt rs imm | addiu rt rs imm | andi rt rs imm | ori rt rs imm | xori rt rs imm =>
    cases ht
    simp only [exec, execAddi, execAddiu, execAndi, execOri, execXori, hread rs (by simp [Instr.sources]),
      State.commit_writeReg (hdest rt rfl), State.commitSigned_writeReg (hdest rt rfl)]
  | beq rs rt imm | bne rs rt imm =>
    cases ht
    simp only [exec, execBeq, execBne, hread rs (by simp [Instr.sources]), hread rt (by simp [Instr.sources]),
      State.branch_writeReg]
  | lw rt imm rs =>
    have haddr := State.effectiveAddress_writeReg_ne (hsrc rs (by simp [Instr.sources])) imm v s
    simp only [exec, execLw, haddr] at ht ⊢
    by_cases hin : dataInBounds (s.effectiveAddress rs imm) = true
    · rw [if_pos hin] at ht ⊢
      cases ht
      exact congrArg Host.Outcome.next (State.commit_writeReg (hdest rt rfl) _ v s)
    · rw [if_neg hin] at ht ⊢
      cases ht
      rfl
  | sw rt imm rs =>
    have haddr := State.effectiveAddress_writeReg_ne (hsrc rs (by simp [Instr.sources])) imm v s
    simp only [exec, execSw, haddr, hread rt (by simp [Instr.sources])] at ht ⊢
    by_cases hin : dataInBounds (s.effectiveAddress rs imm) = true
    · rw [if_pos hin] at ht ⊢
      cases ht
      rfl
    · rw [if_neg hin] at ht ⊢
      cases ht
      rfl
  | j | halt | empty =>
    cases ht
    rfl

/-! ## The obligations -/

/-- Settles O41: the zeros of power-on, read field by field. -/
theorem resetIsThePowerOnState : Obligations.ResetIsThePowerOnState := by
  have hreg : ∀ r : RegIdx, State.reset.readReg r = 0x00000000#32 := fun r => Vector.getElem_replicate r.isLt
  exact ⟨hreg, rfl, fun _ => rfl, fun _ => rfl, rfl, rfl, step_idle _ rfl⟩

/-- Settles O45: empty memories are canonical, `pc` is 0, OVF is false and no step has run. -/
theorem invariantHoldsAtReset : Obligations.InvariantHoldsAtReset := by
  have hmem : State.reset.memoriesWf = true := by simp [State.memoriesWf, State.reset]
  have hpc : State.reset.pcReachable := .inl (by decide)
  have hovf : State.reset.ovfOnlyContinued := fun h => absurd h Bool.false_ne_true
  have hrun : State.reset.runAgrees := rfl
  exact ⟨hmem, hpc, hovf, hrun⟩

/-- Settles O11, one clause for each row of the table of run-states. -/
theorem runStateTransitions : Obligations.RunStateTransitions := by
  intro s t ht
  refine ⟨fun hr => ?_, fun hr => ?_, fun hr hpc => ?_, fun hf => ?_, fun hf => ?_, fun w hf h1 h0 => ?_⟩
  · cases (step_halted s hr).symm.trans ht
    exact ⟨hr, rfl, rfl⟩
  · cases (step_empty s hr).symm.trans ht
    exact ⟨hr, rfl, rfl⟩
  · cases (step_fetchOutOfRange s hr hpc).symm.trans ht
    exact ⟨rfl, rfl, rfl⟩
  · cases (step_executes hf decode_halt).symm.trans ht
    exact ⟨rfl, rfl, rfl⟩
  · cases (step_executes hf decode_empty).symm.trans ht
    exact ⟨rfl, rfl, rfl⟩
  · exact (stepEffect_of_next s t ht).run_loaded_of_ne_sentinel hf h1 h0

/-- Settles O35: a step that reports OVF executed an instruction, and its effect was the report alone. -/
theorem overflowIsReportedOnlyByAddSubAddi : Obligations.OverflowIsReportedOnlyByAddSubAddi := by
  intro s t ht hv
  rcases (stepEffect_of_next s t ht).executed_or_unchanged with ⟨w, i, hf, hd, he⟩ | ⟨-, -, -, hno⟩
  · obtain ⟨hi, rfl⟩ := he.eq_report_of_ovf hv
    exact ⟨rfl, ⟨fun _ => rfl, fun _ => rfl, fun _ => rfl, rfl⟩, rfl, w, i, hf, hd, hi⟩
  · exact absurd (hno.symm.trans hv) Bool.false_ne_true

/-- Settles O37: what changed is named by the executed instruction, and a step that executes none changes nothing. -/
theorem stepChangesOnlyWhatTheInstructionNames : Obligations.StepChangesOnlyWhatTheInstructionNames := by
  intro s t ht
  rcases (stepEffect_of_next s t ht).executed_or_unchanged with ⟨w, i, hf, hd, he⟩ | ⟨hregs, hdata, himem, -⟩
  · refine ⟨he.imem_eq, fun a ha => ?_, fun r hr => ⟨w, i, hf, hd, he.destination_of_readReg_ne hr⟩⟩
    obtain ⟨rt, imm, rs, rfl, haddr, hle⟩ := he.sw_of_readData_ne ha
    rw [State.effectiveAddress, simm_eq] at haddr
    exact ⟨w, rt, imm, rs, hf, hd, haddr, hle⟩
  · exact ⟨himem, fun a ha => absurd (hdata a) ha, fun r hr => absurd (hregs r) hr⟩

/-- Settles O39: the write to the unnamed register moves past the instruction. -/
theorem unnamedRegistersPlayNoPart : Obligations.UnnamedRegistersPlayNoPart :=
  fun _ _ _ _ v hs hd ht => exec_writeReg hs hd v ht

/-- Settles O40: the checks of a step look at the run-state, `pc` and the fetched word only, and each of its ends
overwrites both outputs. -/
theorem outputsAreNeverRead : Obligations.OutputsAreNeverRead := by
  rintro ⟨regs, pc, dmem, imem, run, outcome, ovf⟩ o v
  cases run with
  | idle | halted | empty => rfl
  | loaded =>
    by_cases hpc : 255 < pc.toNat
    · rw [step_fetchOutOfRange _ rfl hpc, step_fetchOutOfRange _ rfl hpc]
      rfl
    · have hle : pc.toNat ≤ 255 := not_lt.mp hpc
      rw [step_fetches _ (imem.read pc.toNat) ⟨rfl, hle, rfl⟩,
        step_fetches _ (imem.read pc.toNat) ⟨rfl, hle, rfl⟩]
      exact runWord_withOutputs _ ⟨regs, pc + 1#32, dmem, imem, .loaded, outcome, ovf⟩ o v

end Sys2Proof.Machine
end

section
/-! SUPPORT. The data memory and the invariant under a step (20_memory.md R43, R44, R48, R50; 10_state.md R26): a
canonical memory is determined by its reads, the bounds check in 32 bits, the data words over many steps, and each
clause of the invariant with the reason why a step keeps it. -/

namespace Sys2Proof.Machine

/-! ## A canonical memory lists exactly the words that differ from the unlisted one -/

theorem Memory.mem_iff_read {size : Nat} {m : Memory} (h : m.wf size = true) (c : Nat × Word) :
    c ∈ m ↔ c.2 ≠ Config.unlistedWord ∧ m.read c.1 = c.2 := by
  induction m with
  | nil => simp [eq_comm]
  | cons d m ih =>
    obtain ⟨k, v⟩ := d
    obtain ⟨a, w⟩ := c
    obtain ⟨⟨-, hv⟩, hk, hwf⟩ := (Memory.wf_cons ..).mp h
    rw [List.mem_cons, ih hwf, Memory.read_cons]
    by_cases hka : k = a
    · subst hka
      have hrest : Memory.read m k = Config.unlistedWord :=
        Memory.read_of_forall_ne m k fun c hc => (hk c hc).ne'
      simp only [hrest, if_true, Prod.mk.injEq, true_and]
      constructor
      · rintro (rfl | ⟨hw, hw'⟩)
        · exact ⟨hv, rfl⟩
        · exact absurd hw' (Ne.symm hw)
      · exact fun hw => .inl hw.2.symm
    · simp [hka, Ne.symm hka]

theorem Memory.mem_of_reads_alike {size : Nat} {m n : Memory} (hm : m.wf size = true) (hn : n.wf size = true)
    (hread : ∀ a, a < size → m.read a = n.read a) {c : Nat × Word} (hc : c ∈ m) : c ∈ n := by
  obtain ⟨hlisted, hval⟩ := (Memory.mem_iff_read hm c).mp hc
  have hlt : c.1 < size := (((Memory.wf_iff size m).mp hm).2 c hc).1
  exact (Memory.mem_iff_read hn c).mpr ⟨hlisted, (hread c.1 hlt).symm.trans hval⟩

/-! ## Exact results and their 32-bit patterns -/

theorem trunc32_toNat (r : Int) : ((trunc32 r).toNat : Int) = r % 2 ^ 32 := by
  rw [trunc32, BitVec.toNat_ofInt]
  exact Int.toNat_of_nonneg (Int.emod_nonneg r (by decide))

theorem trunc32_toInt_add_imm (base : Word) (imm : Imm16) :
    trunc32 (base.toInt + imm.toInt) = base + imm.signExtend 32 := by
  rw [← sext32_toInt, trunc32_toInt_add, sext32]

/-! ## Over several steps -/

theorem step_of_core_run_succ {k : Nat} {s t : State} (h : Host.Core.run core (k + 1) s = .next t) :
    ∃ u, step s = .next u ∧ Host.Core.run core k u = .next t := by
  cases hs : step s with
  | next u => exact ⟨u, rfl, core_run_succ k s u hs ▸ h⟩
  | fault r => cases r
  | refused r =>
    have hs' : core.step s = .refused r := hs
    simp [Host.Core.run, hs'] at h

/-! ## The clauses of the invariant -/

theorem State.memoriesWf_iff (s : State) :
    s.memoriesWf = true ↔ s.imem.wf Config.imemWords = true ∧ s.dmem.wf Config.dmemWords = true := by
  simp [State.memoriesWf]

/-- Only SW writes a memory, and it writes inside the address space (20_memory.md R48). -/
theorem ExecEffect.memoriesWf {i : Instr} {s t : State} (h : ExecEffect i s t) (hs : s.memoriesWf = true) :
    t.memoriesWf = true := by
  cases h with
  | stored rt imm rs hi ha =>
    obtain ⟨himem, hdmem⟩ := s.memoriesWf_iff.mp hs
    have hlt : (s.effectiveAddress rs imm).toNat < Config.dmemWords := by
      rw [Config.dmemWords_eq]
      omega
    exact (State.memoriesWf_iff _).mpr ⟨himem, Memory.wf_write _ _ _ (s.readReg rt) hdmem hlt⟩
  | _ => exact hs

theorem StepEffect.memoriesWf {s t : State} (h : StepEffect s t) (hs : s.memoriesWf = true) :
    t.memoriesWf = true := by
  cases h with
  | executed w i hf hd t he => exact he.memoriesWf hs
  | _ => exact hs

/-- Where a jump or a branch can land: a BNE wraps at most 32767 below zero, and nothing reaches 2^26 (10_state.md
R26). -/
theorem State.jumpTo_pcReachable {d : Int} (s : State) (hlo : -32767 ≤ d) (hhi : d < 2 ^ 26) :
    (s.jumpTo d).pcReachable := by
  have hpc := trunc32_toNat d
  rw [State.pcReachable, State.jumpTo_pc]
  omega

theorem ExecEffect.pcReachable {i : Instr} {s t : State} (h : ExecEffect i s t) (hlo : 1 ≤ s.pc.toNat)
    (hhi : s.pc.toNat ≤ 256) : t.pcReachable := by
  have hkept : s.pcReachable := .inl (by omega)
  cases h with
  | jumped target =>
    have := target.isLt
    exact s.jumpTo_pcReachable (d := target.toNat) (by omega) (by omega)
  | beqTaken rs rt imm =>
    have := imm.isLt
    exact s.jumpTo_pcReachable (d := s.pc.toNat + imm.toNat) (by omega) (by omega)
  | bneTaken rs rt imm =>
    have := imm_toInt_range imm
    exact s.jumpTo_pcReachable (d := s.pc.toNat + imm.toInt) (by omega) (by omega)
  | _ => exact hkept

theorem StepEffect.pcReachable {s t : State} (h : StepEffect s t) (hs : s.pcReachable) : t.pcReachable := by
  cases h with
  | unknown w e hf hd =>
    have hpc := fetches_pc_succ s w hf
    obtain ⟨-, hle, -⟩ := hf
    exact .inl (show (s.pc + 1#32).toNat < 2 ^ 26 by omega)
  | executed w i hf hd t he =>
    have hpc := fetches_pc_succ s w hf
    obtain ⟨-, hle, -⟩ := hf
    exact he.pcReachable (show 1 ≤ (s.pc + 1#32).toNat by omega) (show (s.pc + 1#32).toNat ≤ 256 by omega)
  | _ => exact hs

theorem State.runAgrees_of_loaded {s : State} (hr : s.run = .loaded) :
    s.runAgrees ↔ s.outcome ≠ some .halted ∧ s.outcome ≠ some .empty := by
  simp [State.runAgrees, hr]

theorem State.runAgrees_of_halted {s : State} (hr : s.run = .halted) :
    s.runAgrees ↔ s.outcome = some .halted ∧ 1 ≤ s.pc.toNat ∧ s.pc.toNat ≤ 256 ∧
      s.imem.read (s.pc.toNat - 1) = Config.haltWord := by
  simp [State.runAgrees, hr]

theorem State.runAgrees_of_empty {s : State} (hr : s.run = .empty) :
    s.runAgrees ↔ s.outcome = some .empty ∧
      (256 ≤ s.pc.toNat ∨ (1 ≤ s.pc.toNat ∧ s.imem.read (s.pc.toNat - 1) = Config.emptyWord)) := by
  simp [State.runAgrees, hr]

/-- One past a word that was fetched, that word still stands at `pc - 1`. -/
theorem fetches_read_pc_pred {s : State} {w : Word} (hf : s.fetches w) :
    s.imem.read ((s.pc + 1#32).toNat - 1) = w := by
  rw [fetches_pc_succ s w hf, Nat.add_sub_cancel]
  exact hf.2.2

/-- A fetched word leaves the run-state in agreement: each sentinel ends the run one past itself, and every other word
leaves the core Loaded (40_fetch_step.md R93, R94). -/
theorem runAgrees_of_fetches {s t : State} {w : Word} (hf : s.fetches w) (ht : step s = .next t) :
    t.runAgrees := by
  have hpc := fetches_pc_succ s w hf
  have hread := fetches_read_pc_pred hf
  have ⟨_, hle, _⟩ := hf
  by_cases h1 : w = 0xFFFFFFFF#32
  · subst h1
    cases (step_executes hf decode_halt).symm.trans ht
    exact (State.runAgrees_of_halted rfl).mpr
      ⟨rfl, show 1 ≤ (s.pc + 1#32).toNat by omega, show (s.pc + 1#32).toNat ≤ 256 by omega, hread⟩
  by_cases h0 : w = 0x00000000#32
  · subst h0
    cases (step_executes hf decode_empty).symm.trans ht
    exact (State.runAgrees_of_empty rfl).mpr
      ⟨rfl, .inr ⟨show 1 ≤ (s.pc + 1#32).toNat by omega, hread⟩⟩
  obtain ⟨hrun, hout⟩ := (stepEffect_of_next s t ht).run_loaded_of_ne_sentinel hf h1 h0
  rw [State.runAgrees_of_loaded hrun]
  rcases hout with hc | ⟨e, he, -⟩
  · simp [hc]
  · simp [he]

theorem step_keeps_runAgrees {s t : State} (hs : s.runAgrees) (ht : step s = .next t) : t.runAgrees := by
  cases hr : s.run with
  | idle => cases (step_idle s hr).symm.trans ht
  | halted =>
    cases (step_halted s hr).symm.trans ht
    exact (State.runAgrees_of_halted (s := s.report .halted false) hr).mpr ⟨rfl, ((State.runAgrees_of_halted hr).mp hs).2⟩
  | empty =>
    cases (step_empty s hr).symm.trans ht
    exact (State.runAgrees_of_empty (s := s.report .empty false) hr).mpr ⟨rfl, ((State.runAgrees_of_empty hr).mp hs).2⟩
  | loaded =>
    by_cases hpc : 255 < s.pc.toNat
    · cases (step_fetchOutOfRange s hr hpc).symm.trans ht
      exact (State.runAgrees_of_empty rfl).mpr ⟨rfl, .inl hpc⟩
    · exact runAgrees_of_fetches ⟨hr, not_lt.mp hpc, rfl⟩ ht

/-! ## The obligations -/

/-- Settles O46, clause by clause; that OVF comes only with CONTINUED needs nothing of the state before. -/
theorem stepKeepsTheInvariant : Obligations.StepKeepsTheInvariant := by
  rintro s t ⟨hmem, hpc, -, hrun⟩ ht
  have heff := stepEffect_of_next s t ht
  have hovf : t.ovfOnlyContinued := fun hv => (overflowIsReportedOnlyByAddSubAddi s t ht hv).1
  exact ⟨heff.memoriesWf hmem, heff.pcReachable hpc, hovf, step_keeps_runAgrees hrun ht⟩

/-- Settles O32: the exact sum is too small to be congruent, modulo 2^32, to an index other than itself. -/
theorem boundsCheckOnTheWrappedSum : Obligations.BoundsCheckOnTheWrappedSum := by
  intro base imm
  have hbase : -2 ^ 31 ≤ base.toInt ∧ base.toInt < 2 ^ 31 := ⟨BitVec.le_toInt base, BitVec.toInt_lt⟩
  have himm := imm_toInt_range imm
  have hsum := trunc32_toNat (base.toInt + imm.toInt)
  rw [trunc32_toInt_add_imm] at hsum
  rw [dataInBounds_iff, simm_eq]
  omega

/-- Settles O33: the two lists have the same members, and each is sorted by its indices. -/
theorem canonicalMemoriesThatReadAlikeAreEqual : Obligations.CanonicalMemoriesThatReadAlikeAreEqual := by
  intro size m n hm hn hread
  have hmn : m ⊆ n := fun _ => Memory.mem_of_reads_alike hm hn hread
  have hnm : n ⊆ m := fun _ => Memory.mem_of_reads_alike hn hm fun a ha => (hread a ha).symm
  have ⟨hmSorted, _⟩ := (Memory.wf_iff size m).mp hm
  have ⟨hnSorted, _⟩ := (Memory.wf_iff size n).mp hn
  have : Std.Asymm (fun c d : Nat × Word => c.1 < d.1) := ⟨fun _ _ => lt_asymm⟩
  exact List.Subset.antisymm_of_pairwise hmSorted hnSorted hmn hnm

/-- Settles O38, by induction on the number of steps: the step that changed the word is the first one or one of the
rest. -/
theorem dataWordKeepsItsValueUntilStored : Obligations.DataWordKeepsItsValueUntilStored := by
  intro k
  induction k with
  | zero =>
    intro s t ht
    cases ht
    exact ⟨rfl, fun a ha => absurd rfl ha⟩
  | succ k ih =>
    intro s t ht
    obtain ⟨u, hsu, hut⟩ := step_of_core_run_succ ht
    obtain ⟨himem, hdata, -⟩ := stepChangesOnlyWhatTheInstructionNames s u hsu
    obtain ⟨himem', hdata'⟩ := ih u t hut
    refine ⟨himem'.trans himem, fun a ha => ?_⟩
    by_cases hfirst : u.readData a = s.readData a
    · obtain ⟨j, u', w, rt, imm, rs, hj, hrun, hstore⟩ := hdata' a (hfirst ▸ ha)
      exact ⟨j + 1, u', w, rt, imm, rs, Nat.succ_lt_succ hj, (core_run_succ j s u hsu).trans hrun, hstore⟩
    · obtain ⟨w, rt, imm, rs, hstore⟩ := hdata a hfirst
      exact ⟨0, s, w, rt, imm, rs, Nat.succ_pos k, rfl, hstore⟩

end Sys2Proof.Machine
end

section
/-! SUPPORT. Decoding as a relation (30_encoding.md R61, R65, R66, R69, R70, R74): the rows of each format with the
instruction each one names, what the decoder accepts in terms of the fields of the word, and from it the round trips
between words and instructions. -/

namespace Sys2Proof

/-! ## The rows of R66, by format -/

/-- The R-format rows of R66: the function code and the instruction it names, as a function of `rd`, `rs`, `rt`. -/
inductive RFormatRow : BitVec 6 → (RegIdx → RegIdx → RegIdx → Instr) → Prop where
  | add : RFormatRow 0x20#6 .add
  | addu : RFormatRow 0x21#6 .addu
  | sub : RFormatRow 0x22#6 .sub
  | subu : RFormatRow 0x23#6 .subu
  | and : RFormatRow 0x24#6 .and
  | or : RFormatRow 0x25#6 .or
  | xor : RFormatRow 0x26#6 .xor
  | nor : RFormatRow 0x27#6 .nor

/-- The I-format rows of R66: the opcode and the instruction it names, as a function of `rs`, `rt`, `imm`. -/
inductive IFormatRow : BitVec 6 → (RegIdx → RegIdx → Imm16 → Instr) → Prop where
  | beq : IFormatRow 0x04#6 .beq
  | bne : IFormatRow 0x05#6 .bne
  | addi : IFormatRow 0x08#6 fun rs rt imm => .addi rt rs imm
  | addiu : IFormatRow 0x09#6 fun rs rt imm => .addiu rt rs imm
  | andi : IFormatRow 0x0C#6 fun rs rt imm => .andi rt rs imm
  | ori : IFormatRow 0x0D#6 fun rs rt imm => .ori rt rs imm
  | xori : IFormatRow 0x0E#6 fun rs rt imm => .xori rt rs imm
  | lw : IFormatRow 0x23#6 fun rs rt imm => .lw rt imm rs
  | sw : IFormatRow 0x2B#6 fun rs rt imm => .sw rt imm rs

section
variable {w : Word} {op funct : BitVec 6} {mkR : RegIdx → RegIdx → RegIdx → Instr}
  {mkI : RegIdx → RegIdx → Imm16 → Instr}

theorem RFormatRow.funct_ne_zero (hr : RFormatRow funct mkR) : funct ≠ 0x00#6 := by
  cases hr <;> decide

theorem IFormatRow.op_ne (hr : IFormatRow op mkI) : op ≠ 0x3F#6 ∧ op ≠ 0x00#6 := by
  cases hr <;> decide

theorem RFormatRow.format_eq (hr : RFormatRow funct mkR) (rd rs rt : RegIdx) :
    (mkR rd rs rt).format = .rFormat rs rt rd funct.toNat := by
  cases hr <;> rfl

theorem IFormatRow.format_eq (hr : IFormatRow op mkI) (rs rt : RegIdx) (imm : Imm16) :
    (mkI rs rt imm).format = .iFormat op.toNat rs rt imm.toNat := by
  cases hr <;> rfl

theorem RFormatRow.mem_opcodeTable (hr : RFormatRow funct mkR) :
    ⟨(mkR 0 0 0).mnemonic, funct.setWidth 32, 0xFC00003F#32⟩ ∈ opcodeTable := by
  cases hr <;> decide

theorem IFormatRow.mem_opcodeTable (hr : IFormatRow op mkI) :
    ⟨(mkI 0 0 0).mnemonic, op.setWidth 32 <<< 26, 0xFC000000#32⟩ ∈ opcodeTable := by
  cases hr <;> decide

/-! ## What the decoder accepts -/

/-- The word `w` is the instruction: a sentinel whole (R65), otherwise by the row its opcode and function code name,
with its operands in its fields (R61, R66). -/
inductive Decodes (w : Word) : Instr → Prop where
  | rFormat {funct : BitVec 6} {mk : RegIdx → RegIdx → RegIdx → Instr} (hop : opField w = 0x00#6)
      (hf : functField w = funct) (hr : RFormatRow funct mk) : Decodes w (mk (rdField w) (rsField w) (rtField w))
  | iFormat {op : BitVec 6} {mk : RegIdx → RegIdx → Imm16 → Instr} (hop : opField w = op)
      (hr : IFormatRow op mk) : Decodes w (mk (rsField w) (rtField w) (immField w))
  | jFormat (hop : opField w = 0x02#6) : Decodes w (.j (targetField w))
  | halt (hw : w = 0xFFFFFFFF#32) : Decodes w .halt
  | empty (hw : w = 0x00000000#32) : Decodes w .empty

theorem decodeFunct_of_row (hf : functField w = funct) (hr : RFormatRow funct mkR) :
    decodeFunct w = .ok (mkR (rdField w) (rsField w) (rtField w)) := by
  cases hr <;> simp [decodeFunct, hf]

theorem decodeOpcode_of_row (hop : opField w = op) (hr : IFormatRow op mkI) :
    decodeOpcode w = .ok (mkI (rsField w) (rtField w) (immField w)) := by
  cases hr <;> simp [decodeOpcode, hop]

/-- The decoder accepts every word that is an instruction. -/
theorem Decodes.decode_eq {i : Instr} (h : Decodes w i) : decode w = .ok i := by
  cases h with
  | rFormat hop hf hr => rw [decode_of_funct w hop (hf ▸ hr.funct_ne_zero), decodeFunct_of_row hf hr]
  | iFormat hop hr => rw [decode_of_op w (hop ▸ hr.op_ne.1) (hop ▸ hr.op_ne.2), decodeOpcode_of_row hop hr]
  | jFormat hop =>
    rw [decode_of_op w (by simp [hop]) (by simp [hop])]
    simp [decodeOpcode, hop]
  | halt hw => rw [hw, decode_halt]
  | empty hw => rw [hw, decode_empty]

theorem decodes_of_decodeFunct {i : Instr} (hop : opField w = 0x00#6) (h : decodeFunct w = .ok i) :
    Decodes w i := by
  unfold decodeFunct at h
  split at h <;> cases h
  case h_1 hf => exact .rFormat hop hf .add
  case h_2 hf => exact .rFormat hop hf .addu
  case h_3 hf => exact .rFormat hop hf .sub
  case h_4 hf => exact .rFormat hop hf .subu
  case h_5 hf => exact .rFormat hop hf .and
  case h_6 hf => exact .rFormat hop hf .or
  case h_7 hf => exact .rFormat hop hf .xor
  case h_8 hf => exact .rFormat hop hf .nor

theorem decodes_of_decodeOpcode {i : Instr} (h : decodeOpcode w = .ok i) : Decodes w i := by
  unfold decodeOpcode at h
  split at h
  case h_1 hop => exact decodes_of_decodeFunct hop h
  all_goals cases h
  case h_2 hop => exact .jFormat hop
  case h_3 hop => exact .iFormat hop .beq
  case h_4 hop => exact .iFormat hop .bne
  case h_5 hop => exact .iFormat hop .addi
  case h_6 hop => exact .iFormat hop .addiu
  case h_7 hop => exact .iFormat hop .andi
  case h_8 hop => exact .iFormat hop .ori
  case h_9 hop => exact .iFormat hop .xori
  case h_10 hop => exact .iFormat hop .lw
  case h_11 hop => exact .iFormat hop .sw

/-- The decoder accepts nothing else. -/
theorem decode_eq_ok_iff {i : Instr} : decode w = .ok i ↔ Decodes w i := by
  refine ⟨fun h => ?_, Decodes.decode_eq⟩
  by_cases h1 : w = 0xFFFFFFFF#32
  · cases h1
    cases h
    exact .halt rfl
  by_cases h0 : w = 0x00000000#32
  · cases h0
    cases h
    exact .empty rfl
  · exact decodes_of_decodeOpcode (decode_of_ne w h1 h0 ▸ h)

/-! ## Words that hit a row of the table (R66) -/

theorem decode_of_rMask {p : Word} (hr : RFormatRow funct mkR) (hop : opField p = 0x00#6)
    (hf : functField p = funct) (h : w &&& 0xFC00003F#32 = p) :
    decode w = .ok (mkR (rdField w) (rsField w) (rtField w)) :=
  (Decodes.rFormat ((opField_of_mask w _ p h rfl).trans hop) ((functField_of_mask w _ p h rfl).trans hf) hr).decode_eq

theorem decode_of_iMask {p : Word} (hr : IFormatRow op mkI) (hop : opField p = op) (h : w &&& 0xFC000000#32 = p) :
    decode w = .ok (mkI (rsField w) (rtField w) (immField w)) :=
  (Decodes.iFormat ((opField_of_mask w _ p h rfl).trans hop) hr).decode_eq

theorem Decodes.hits_row {i : Instr} (h : Decodes w i) : ∃ row ∈ opcodeTable, row.hits w = true := by
  cases h with
  | rFormat hop hf hr =>
    exact ⟨_, hr.mem_opcodeTable, beq_iff_eq.mpr (hf ▸ functMask_of_field w hop)⟩
  | iFormat hop hr =>
    exact ⟨_, hr.mem_opcodeTable, beq_iff_eq.mpr (hop ▸ opMask_of_field w)⟩
  | jFormat hop =>
    refine ⟨⟨"J", 0x08000000#32, 0xFC000000#32⟩, by decide, beq_iff_eq.mpr ?_⟩
    rw [opMask_of_field, hop]
    rfl
  | halt hw => exact ⟨⟨"HALT", 0xFFFFFFFF#32, 0xFFFFFFFF#32⟩, by decide, by rw [hw]; rfl⟩
  | empty hw => exact ⟨⟨"EMPTY", 0x00000000#32, 0xFFFFFFFF#32⟩, by decide, by rw [hw]; rfl⟩

/-- A word that hits two rows shows them to agree on the bits that both masks fix. -/
theorem OpcodeRow.agree_of_hits {a b : OpcodeRow} (ha : a.hits w = true) (hb : b.hits w = true) :
    a.pattern &&& b.mask = b.pattern &&& a.mask := by
  rw [OpcodeRow.hits, beq_iff_eq] at ha hb
  rw [← ha, ← hb, BitVec.and_assoc, BitVec.and_assoc, BitVec.and_comm a.mask]

/-! ## Words built by the encoder (R74) -/

theorem decode_encode_rFormat (hr : RFormatRow funct mkR) {rd rs rt : RegIdx}
    (h : (mkR rd rs rt).format.wellFormed = true) : decode (encode (mkR rd rs rt)) = .ok (mkR rd rs rt) := by
  rw [encode]
  rw [hr.format_eq] at h ⊢
  obtain ⟨hop, hrs, hrt, hrd, hf⟩ := fields_rFormat _ _ _ _ h
  have hdec := (Decodes.rFormat (BitVec.eq_of_toNat_eq hop) (BitVec.eq_of_toNat_eq hf) hr).decode_eq
  rwa [Fin.ext hrs, Fin.ext hrt, Fin.ext hrd] at hdec

theorem decode_encode_iFormat (hr : IFormatRow op mkI) {rs rt : RegIdx} {imm : Imm16}
    (h : (mkI rs rt imm).format.wellFormed = true) : decode (encode (mkI rs rt imm)) = .ok (mkI rs rt imm) := by
  rw [encode]
  rw [hr.format_eq] at h ⊢
  obtain ⟨hop, hrs, hrt, himm⟩ := fields_iFormat _ _ _ _ h
  have hdec := (Decodes.iFormat (BitVec.eq_of_toNat_eq hop) hr).decode_eq
  rwa [Fin.ext hrs, Fin.ext hrt, BitVec.eq_of_toNat_eq himm] at hdec

theorem decode_encode_j {target : Target} (h : (Instr.j target).format.wellFormed = true) :
    decode (encode (.j target)) = .ok (.j target) := by
  obtain ⟨hop, htarget⟩ := fields_jFormat target.toNat h
  have hdec := (Decodes.jFormat (BitVec.eq_of_toNat_eq hop)).decode_eq
  rwa [BitVec.eq_of_toNat_eq htarget] at hdec

/-! ## Bits 10 to 6 of an R-format word (R69) -/

theorem extractLsb'_and_of_allOnes (w m : Word) (start len : Nat) (h : m.extractLsb' start len = BitVec.allOnes len) :
    (w &&& m).extractLsb' start len = w.extractLsb' start len := by
  rw [BitVec.extractLsb'_and, h, BitVec.and_allOnes]

theorem opField_clear (w : Word) : opField (w &&& 0xFFFFF83F#32) = opField w :=
  extractLsb'_and_of_allOnes w _ 26 6 rfl

/-- The dispatch on the function code does not look at bits 10 to 6. -/
theorem decodeFunct_clear (w : Word) : decodeFunct (w &&& 0xFFFFF83F#32) = decodeFunct w := by
  have hfield := extractLsb'_and_of_allOnes w 0xFFFFF83F#32
  simp only [decodeFunct, functField, rsField, rtField, rdField, hfield 0 6 rfl, hfield 21 5 rfl, hfield 16 5 rfl,
    hfield 11 5 rfl]

/-- An R-format word other than the zero word is dispatched on its function code. -/
theorem decode_of_opField_zero (hop : opField w = 0x00#6) (h0 : w ≠ 0x00000000#32) :
    decode w = decodeFunct w := by
  have h1 : w ≠ 0xFFFFFFFF#32 := by
    rintro rfl
    exact absurd hop (by decide)
  rw [decode_of_ne w h1 h0]
  simp [decodeOpcode, hop]

end

/-! ## A rejected word (R71) -/

/-- A step that fetches a rejected word raises `UnknownInstruction`, with `pc` incremented (R71, R151). -/
theorem Machine.step_raises_unknown {s : Machine.State} {w : Word} {e : DecodeError} (hf : s.fetches w)
    (he : decode w = .error e) :
    Machine.step s = .next ({ s with pc := s.pc + 1#32 }.report (.error (.unknownInstruction w)) false) := by
  simp [Machine.step_fetches s w hf, Machine.runWord, he]

/-! ## The obligations -/

/-- Settles O2: the word an instruction is encoded to has the fields it was built from, and so decodes by the row that
the instruction was encoded by. -/
theorem decodeEncodeRoundTrip : Obligations.DecodeEncodeRoundTrip := by
  refine ⟨fun i h => ?_, fields_iFormat, fun rs rt rd funct h => ?_, fun target h => ?_⟩
  · cases i with
    | add => exact decode_encode_rFormat .add h
    | addu => exact decode_encode_rFormat .addu h
    | sub => exact decode_encode_rFormat .sub h
    | subu => exact decode_encode_rFormat .subu h
    | and => exact decode_encode_rFormat .and h
    | or => exact decode_encode_rFormat .or h
    | xor => exact decode_encode_rFormat .xor h
    | nor => exact decode_encode_rFormat .nor h
    | j => exact decode_encode_j h
    | beq => exact decode_encode_iFormat .beq h
    | bne => exact decode_encode_iFormat .bne h
    | addi => exact decode_encode_iFormat .addi h
    | addiu => exact decode_encode_iFormat .addiu h
    | andi => exact decode_encode_iFormat .andi h
    | ori => exact decode_encode_iFormat .ori h
    | xori => exact decode_encode_iFormat .xori h
    | lw => exact decode_encode_iFormat .lw h
    | sw => exact decode_encode_iFormat .sw h
    | halt => exact decode_halt
    | empty => exact decode_empty
  · exact (fields_rFormat rs rt rd funct h).imp_left BitVec.eq_of_toNat_eq
  · exact (fields_jFormat target h).imp_left BitVec.eq_of_toNat_eq

/-- Settles O3: the mask fixes the opcode, and the function code of an R-format row; and any two rows differ in a bit
that both their masks fix. -/
theorem everyTableRowDecodesItsWords : Obligations.EveryTableRowDecodesItsWords := by
  have hdiffer : opcodeTable.Pairwise fun a b => a.pattern &&& b.mask ≠ b.pattern &&& a.mask := by decide
  refine ⟨fun w => ?_, hdiffer.imp fun hne w hits => hne (OpcodeRow.agree_of_hits hits.1 hits.2)⟩
  have hj (h : w &&& 0xFC000000#32 = 0x08000000#32) : decode w = .ok (.j (targetField w)) :=
    (Decodes.jFormat (opField_of_mask w _ _ h rfl)).decode_eq
  exact ⟨decode_of_rMask .add rfl rfl, decode_of_rMask .addu rfl rfl, decode_of_rMask .sub rfl rfl,
    decode_of_rMask .subu rfl rfl, decode_of_rMask .and rfl rfl, decode_of_rMask .or rfl rfl,
    decode_of_rMask .xor rfl rfl, decode_of_rMask .nor rfl rfl, hj,
    decode_of_iMask .beq rfl, decode_of_iMask .bne rfl, decode_of_iMask .addi rfl, decode_of_iMask .addiu rfl,
    decode_of_iMask .andi rfl, decode_of_iMask .ori rfl, decode_of_iMask .xori rfl, decode_of_iMask .lw rfl,
    decode_of_iMask .sw rfl⟩

/-- A rejected word hits no row, since a word that hits one decodes. -/
theorem hits_eq_false_of_decode_error {w : Word} {e : DecodeError} (he : decode w = .error e) :
    ∀ row ∈ opcodeTable, row.hits w = false := by
  have hrows := everyTableRowDecodesItsWords.1 w
  have h1 : w ≠ 0xFFFFFFFF#32 := by
    rintro rfl
    cases he
  have h0 : w ≠ 0x00000000#32 := by
    rintro rfl
    cases he
  have hwhole : w &&& 0xFFFFFFFF#32 = w := BitVec.and_allOnes
  simp only [he, reduceCtorEq, imp_false] at hrows
  simpa [opcodeTable, OpcodeRow.hits, hwhole, h1, h0] using hrows

/-- Settles O4: a word decodes exactly when it hits a row, and the step that fetches any other raises the error. -/
theorem unknownWordsAreThoseOutsideTheTable : Obligations.UnknownWordsAreThoseOutsideTheTable := by
  intro w
  have hrejects : (∀ row ∈ opcodeTable, row.hits w = false) → ∃ e, decode w = .error e := fun hmiss => by
    cases hd : decode w with
    | error e => exact ⟨e, rfl⟩
    | ok i =>
      obtain ⟨row, hrow, hhit⟩ := (decode_eq_ok_iff.mp hd).hits_row
      exact absurd hhit (by simp [hmiss row hrow])
  refine ⟨⟨fun ⟨_, he⟩ => hits_eq_false_of_decode_error he, hrejects⟩, fun hmiss s hf => ?_⟩
  obtain ⟨e, he⟩ := hrejects hmiss
  exact ⟨_, Machine.step_raises_unknown hf he, rfl, ⟨fun _ => rfl, fun _ => rfl, fun _ => rfl, rfl⟩, rfl, rfl⟩

/-- Settles O5: the fields of the word, from which the encoder builds it again, leave out bits 10 to 6 in the R-format
and nothing in the others. -/
theorem encodeRecoversTheWord : Obligations.EncodeRecoversTheWord := by
  intro w i hd
  cases decode_eq_ok_iff.mp hd with
  | rFormat hop hf hr =>
    refine ⟨fun _ => ?_, fun hne => absurd hop hne⟩
    rw [encode, hr.format_eq]
    exact rFormat_of_fields w _ hop (congrArg BitVec.toNat hf)
  | iFormat hop hr =>
    refine ⟨fun h0 => absurd (hop.symm.trans h0) hr.op_ne.2, fun _ => ?_⟩
    rw [encode, hr.format_eq]
    exact iFormat_of_fields w _ (congrArg BitVec.toNat hop)
  | jFormat hop =>
    exact ⟨fun h0 => absurd (hop.symm.trans h0) (by decide), fun _ => jFormat_of_fields w (congrArg BitVec.toNat hop)⟩
  | halt hw =>
    subst hw
    exact ⟨fun h0 => absurd h0 (by decide), fun _ => rfl⟩
  | empty hw =>
    subst hw
    exact ⟨fun _ => rfl, fun _ => rfl⟩

/-- Settles O6: both words are dispatched on the function code, which sees the same word once bits 10 to 6 are
cleared. -/
theorem ignoredBitsDoNotMatter : Obligations.IgnoredBitsDoNotMatter := by
  intro v w hvw hv hv0 hw0
  have hw : opField w = 0x00#6 := by
    rw [← opField_clear, ← hvw, opField_clear]
    exact hv
  calc decode v = decodeFunct v := decode_of_opField_zero hv hv0
    _ = decodeFunct (v &&& 0xFFFFF83F#32) := (decodeFunct_clear v).symm
    _ = decodeFunct (w &&& 0xFFFFF83F#32) := by rw [hvw]
    _ = decodeFunct w := decodeFunct_clear w
    _ = decode w := (decode_of_opField_zero hw hw0).symm

/-- Settles O1, by running the decoder on the thirteen words. -/
theorem sampleWordsDecode : Obligations.SampleWordsDecode := by
  unfold Obligations.SampleWordsDecode
  decide

end Sys2Proof
end

section
/-! SUPPORT. The ends of a run (40_fetch_step.md R90, R91, R93, R94): a state in which a step changes nothing stays
for every number of steps, and a core in Halted or Empty reaches such a state by one report at most. -/

namespace Sys2Proof.Machine

/-! ## States that no further step leaves -/

/-- Reporting again what the last step returned changes nothing. -/
theorem State.report_eq_self {o : StepOutcome} {v : Bool} {s : State} (h : s.returned o v) : s.report o v = s := by
  obtain ⟨ho, hv⟩ := h
  exact State.ext_of_reads s (s.report o v) (fun _ => rfl) rfl rfl rfl rfl ho.symm hv.symm

theorem core_run_of_step_eq_self {s : State} (h : step s = .next s) (k : Nat) : Host.Core.run core k s = .next s := by
  induction k with
  | zero => rfl
  | succ k ih => exact (core_run_succ k s s h).trans ih

/-- A step that only reports has, since no step reads the outputs, nothing left to change after the first time. -/
theorem step_report_of_step_eq_report {o : StepOutcome} {v : Bool} {s : State} (h : step s = .next (s.report o v)) :
    step (s.report o v) = .next (s.report o v) :=
  (outputsAreNeverRead s (some o) v).trans h

theorem core_run_of_step_eq_report {o : StepOutcome} {v : Bool} {s : State} (h : step s = .next (s.report o v))
    (k : Nat) : ∃ t, Host.Core.run core k s = .next t ∧ s.sameArch t ∧ (0 < k → t.returned o v) := by
  cases k with
  | zero => exact ⟨s, rfl, ⟨rfl, rfl, rfl, rfl, rfl⟩, fun hk => absurd hk (Nat.lt_irrefl 0)⟩
  | succ k =>
    have hrest := core_run_of_step_eq_self (step_report_of_step_eq_report h) k
    exact ⟨s.report o v, (core_run_succ k s _ h).trans hrest, ⟨rfl, rfl, rfl, rfl, rfl⟩, fun _ => ⟨rfl, rfl⟩⟩

theorem core_run_of_halted_returned {s : State} (hr : s.run = .halted) (h : s.returned .halted false) (k : Nat) :
    Host.Core.run core k s = .next s :=
  core_run_of_step_eq_self ((step_halted s hr).trans (congrArg Host.Outcome.next (State.report_eq_self h))) k

theorem core_run_of_empty_returned {s : State} (hr : s.run = .empty) (h : s.returned .empty false) (k : Nat) :
    Host.Core.run core k s = .next s :=
  core_run_of_step_eq_self ((step_empty s hr).trans (congrArg Host.Outcome.next (State.report_eq_self h))) k

/-! ## The obligations -/

/-- Settles O8: Idle is refused, and in every other run-state the step has one of the effects listed. -/
theorem stepAnswersUnlessIdle : Obligations.StepAnswersUnlessIdle := by
  refine fun s => ⟨step_idle s, fun hr => ?_⟩
  obtain ⟨t, ht, -⟩ := step_effect s hr
  exact ⟨t, ht⟩

/-- Settles O10: the first step only reports, and the steps after it change nothing. -/
theorem haltedAndEmptyAreTerminal : Obligations.HaltedAndEmptyAreTerminal := fun k s =>
  ⟨fun hr => core_run_of_step_eq_report (step_halted s hr) k,
    fun hr => core_run_of_step_eq_report (step_empty s hr) k⟩

/-- Settles O7: the fetch reads the word, and the word decodes. -/
theorem stepRunsTheDecodedInstruction : Obligations.StepRunsTheDecodedInstruction :=
  fun _ _ _ hf hd => step_executes hf hd

/-- Settles O9: only the run-state and the outputs are written. -/
theorem fetchOutOfRangeEndsTheRun : Obligations.FetchOutOfRangeEndsTheRun := fun s hr hpc =>
  ⟨_, step_fetchOutOfRange s hr hpc, rfl, ⟨rfl, rfl⟩, rfl, fun _ => rfl, fun _ => rfl, fun _ => rfl⟩

/-- Settles O13: each sentinel writes the run-state and the outputs only. -/
theorem sentinelsSetRunStateOnly : Obligations.SentinelsSetRunStateOnly := fun _ =>
  ⟨⟨_, rfl, rfl, ⟨rfl, rfl⟩, fun _ => rfl, rfl, fun _ => rfl, fun _ => rfl⟩,
    ⟨_, rfl, rfl, ⟨rfl, rfl⟩, fun _ => rfl, rfl, fun _ => rfl, fun _ => rfl⟩⟩

/-- Settles O12: the step executes the sentinel on the state with `pc` incremented, and what it returned is what every
later step reports. -/
theorem sentinelWordsEndTheRunForGood : Obligations.SentinelWordsEndTheRunForGood := by
  intro s
  obtain ⟨⟨t, ht, htr, hto, htregs, htpc, htdata, htprog⟩, ⟨u, hu, hur, huo, huregs, hupc, hudata, huprog⟩⟩ :=
    sentinelsSetRunStateOnly { s with pc := s.pc + 1#32 }
  constructor
  · intro hf
    have hstep : step s = .next t := (step_executes hf decode_halt).trans ht
    exact ⟨t, hstep, htr, hto, htpc, htregs, htdata, htprog, core_run_of_halted_returned htr hto⟩
  · intro hf
    have hstep : step s = .next u := (step_executes hf decode_empty).trans hu
    exact ⟨u, hstep, hur, huo, hupc, huregs, hudata, huprog, core_run_of_empty_returned hur huo⟩

end Sys2Proof.Machine
end

section
/-! SUPPORT. The register-to-register ALU instructions (41_alu_register.md): the overflow test in bits as the library's
signed overflow, what the two endings of an ALU instruction do to the state, and the fixed fields of an encoded R-format
row. -/

namespace Sys2Proof

/-- An R-format row is encoded with opcode 0x00 and its own function code (30_encoding.md R62, R66). -/
theorem RFormatRow.fields_encode {funct : BitVec 6} {mk : RegIdx → RegIdx → RegIdx → Instr}
    (hr : RFormatRow funct mk) (rd rs rt : RegIdx) :
    opField (encode (mk rd rs rt)) = 0x00#6 ∧ functField (encode (mk rd rs rt)) = funct := by
  have hwf := Laws.wellFormed_rFormat rs rt rd funct.toNat (decide_eq_true funct.isLt)
  obtain ⟨hop, -, -, -, hf⟩ := fields_rFormat _ _ _ _ hwf
  rw [encode, hr.format_eq]
  exact ⟨BitVec.eq_of_toNat_eq hop, BitVec.eq_of_toNat_eq hf⟩

end Sys2Proof

namespace Sys2Proof.Machine

/-! ## The overflow tests (R120) -/

theorem addOverflowBits_eq_saddOverflow (a b : Word) : addOverflowBits a b = a.saddOverflow b :=
  (BitVec.saddOverflow_eq a b).symm

theorem subOverflowBits_eq_ssubOverflow (a b : Word) : subOverflowBits a b = a.ssubOverflow b := by
  rw [subOverflowBits, BitVec.ssubOverflow_eq]
  cases a.msb <;> cases b.msb <;> simp

theorem fitsSigned32_eq_false_iff (r : Int) : fitsSigned32 r = false ↔ 2 ^ 31 ≤ r ∨ r < -2 ^ 31 := by
  rw [← Bool.not_eq_true, fitsSigned32_iff]
  omega

theorem saddOverflow_iff_not_fits (a b : Word) :
    a.saddOverflow b = true ↔ fitsSigned32 (a.toInt + b.toInt) = false := by
  simp [BitVec.saddOverflow, fitsSigned32_eq_false_iff]

theorem ssubOverflow_iff_not_fits (a b : Word) :
    a.ssubOverflow b = true ↔ fitsSigned32 (a.toInt - b.toInt) = false := by
  simp [BitVec.ssubOverflow, fitsSigned32_eq_false_iff]

/-! ## The two endings of an ALU instruction (R111) -/

/-- An instruction that ends in `commit` writes its destination and nothing else, and reports no overflow. -/
theorem exec_writes_of_commit {i : Instr} {d : RegIdx} {v : Word} {s : State} (h : exec i s = .next (s.commit d v)) :
    ∃ t, exec i s = .next t ∧ s.onlyReg d t ∧ t.returned .continued false ∧ t.readReg d = v :=
  ⟨_, h, s.onlyReg_writeReg d v .continued false, ⟨rfl, rfl⟩, s.readReg_writeReg_self d v⟩

/-- `commitSigned` changes at most the destination, which receives the exact result when it fits. -/
theorem State.commitSigned_writes_or_reports (d : RegIdx) (r : Int) (s : State) :
    s.onlyReg d (s.commitSigned d r) ∧
      if -2 ^ 31 ≤ r ∧ r ≤ 2 ^ 31 - 1 then
        ((s.commitSigned d r).readReg d).toInt = r ∧ (s.commitSigned d r).returned .continued false
      else (s.commitSigned d r).readReg d = s.readReg d ∧ (s.commitSigned d r).returned .continued true := by
  rcases s.commitSigned_cases d r with ⟨hlo, hhi, h⟩ | ⟨hno, h⟩
  · rw [h, if_pos ⟨hlo, hhi⟩]
    refine ⟨s.onlyReg_writeReg d _ _ _, ?_, rfl, rfl⟩
    rw [State.readReg_report, State.readReg_writeReg_self, toInt_trunc32_of_fits r ⟨hlo, hhi⟩]
  · rw [h, if_neg hno]
    exact ⟨⟨fun _ _ => rfl, rfl, fun _ => rfl, fun _ => rfl, rfl⟩, rfl, rfl, rfl⟩

/-! ## The obligations -/

/-- Settles O34: each bit test is the library's signed overflow, which is the range test, and without it the signed
view of the result is exact. -/
theorem overflowTestInBits : Obligations.OverflowTestInBits := by
  intro a b
  rw [addOverflowBits_eq_saddOverflow, subOverflowBits_eq_ssubOverflow]
  exact ⟨saddOverflow_iff_not_fits a b, ssubOverflow_iff_not_fits a b,
    fun h => BitVec.toInt_add_of_not_saddOverflow (by simp [h]),
    fun h => BitVec.toInt_sub_of_not_ssubOverflow (by simp [h])⟩

/-- Settles O14: ADD ends in `commitSigned` of the exact sum. -/
theorem addWritesSumOrReportsOverflow : Obligations.AddWritesSumOrReportsOverflow := by
  intro rd rs rt s
  obtain ⟨hop, hfunct⟩ := RFormatRow.add.fields_encode rd rs rt
  exact ⟨hop, hfunct, _, rfl, s.commitSigned_writes_or_reports rd _⟩

/-- Settles O15: ADDU ends in `commit` of the sum of the two patterns. -/
theorem adduWritesWrappedSum : Obligations.AdduWritesWrappedSum := by
  intro rd rs rt s
  obtain ⟨hop, hfunct⟩ := RFormatRow.addu.fields_encode rd rs rt
  obtain ⟨t, ht, honly, hret, hval⟩ := exec_writes_of_commit (i := .addu rd rs rt) (s := s) rfl
  refine ⟨hop, hfunct, t, ht, honly, hret, ?_⟩
  rw [hval, trunc32_toNat_add, BitVec.toNat_add]

/-- Settles O16: SUB ends in `commitSigned` of the exact difference. -/
theorem subWritesDifferenceOrReportsOverflow : Obligations.SubWritesDifferenceOrReportsOverflow :=
  fun rd _ _ s => ⟨_, rfl, s.commitSigned_writes_or_reports rd _⟩

/-- Settles O17: SUBU ends in `commit` of the difference of the two unsigned views, cut to 32 bits. -/
theorem subuWritesWrappedDifference : Obligations.SubuWritesWrappedDifference := by
  intro rd rs rt s
  obtain ⟨t, ht, honly, hret, hval⟩ := exec_writes_of_commit (i := .subu rd rs rt) (s := s) rfl
  refine ⟨t, ht, honly, hret, ?_⟩
  rw [hval, trunc32_toNat]

/-- Settles O18: each ends in `commit` of its bitwise result, and the complement of a pattern is its difference from
the greatest one. -/
theorem registerLogicWritesBitwiseResult : Obligations.RegisterLogicWritesBitwiseResult := by
  intro rd rs rt s
  obtain ⟨t, ht, honly, hret, hval⟩ := exec_writes_of_commit (i := .nor rd rs rt) (s := s) rfl
  have hnum : (t.readReg rd).toNat = 2 ^ 32 - 1 - (s.readReg rs ||| s.readReg rt).toNat := by
    rw [hval, BitVec.toNat_not]
  exact ⟨and_assoc.mp ⟨RFormatRow.and.fields_encode rd rs rt, exec_writes_of_commit rfl⟩,
    and_assoc.mp ⟨RFormatRow.or.fields_encode rd rs rt, exec_writes_of_commit rfl⟩,
    and_assoc.mp ⟨RFormatRow.xor.fields_encode rd rs rt, exec_writes_of_commit rfl⟩,
    and_assoc.mp ⟨RFormatRow.nor.fields_encode rd rs rt, t, ht, honly, hret, hval, hnum⟩⟩

end Sys2Proof.Machine
end

section
/-! SUPPORT. Jump and branch (42_jump_branch.md): the fixed fields of an encoded I-format or J-format row, `pc` plus an
immediate as a number, what a taken or untaken branch does to the state, and which instructions move `pc`. -/

namespace Sys2Proof

/-- An I-format row is encoded with its own opcode (30_encoding.md R63, R66). -/
theorem IFormatRow.opField_encode {op : BitVec 6} {mk : RegIdx → RegIdx → Imm16 → Instr} (hr : IFormatRow op mk)
    (rs rt : RegIdx) (imm : Imm16) : opField (encode (mk rs rt imm)) = op := by
  have hwf := Laws.wellFormed_iFormat op.toNat rs rt imm (decide_eq_true op.isLt)
  obtain ⟨hop, -, -, -⟩ := fields_iFormat _ _ _ _ hwf
  rw [encode, hr.format_eq]
  exact BitVec.eq_of_toNat_eq hop

/-- J is encoded with opcode 0x02 and its target in the low 26 bits (30_encoding.md R64). -/
theorem fields_encode_j (target : Target) :
    opField (encode (.j target)) = 0x02#6 ∧ targetField (encode (.j target)) = target := by
  obtain ⟨hop, htarget⟩ := fields_jFormat target.toNat (Laws.targetOk_toNat target)
  exact ⟨BitVec.eq_of_toNat_eq hop, BitVec.eq_of_toNat_eq htarget⟩

end Sys2Proof

namespace Sys2Proof.Machine

/-! ## `pc` plus an immediate, as a number -/

theorem toNat_add_signExtend_imm (a : Word) (imm : Imm16) :
    ((a + imm.signExtend 32).toNat : Int) = (a.toNat + imm.toInt) % 2 ^ 32 := by
  rw [← trunc32_toInt_imm, ← trunc32_toNat_add_int, trunc32_toNat]

theorem toNat_add_setWidth_imm (a : Word) (imm : Imm16) (h : a.toNat + imm.toNat < 2 ^ 32) :
    (a + imm.setWidth 32).toNat = a.toNat + imm.toNat := by
  have himm : (imm.setWidth 32).toNat = imm.toNat := BitVec.toNat_setWidth_of_le (by decide)
  rw [BitVec.toNat_add_of_lt (himm ▸ h), himm]

/-! ## What a jump and a branch do to the state -/

/-- Jumping back to the index a state had restores that state, whatever `pc` has become. -/
theorem State.jumpTo_pc_of_setPc (p : Word) (s : State) : State.jumpTo s.pc.toNat { s with pc := p } = s := by
  have hpc : trunc32 s.pc.toNat = s.pc := by simp
  exact congrArg (fun q => { s with pc := q }) hpc

/-- An instruction that ends as BEQ and BNE do writes `pc` only, and that only on its condition. -/
theorem exec_onlyPc_of_branch {i : Instr} {c : Prop} [Decidable c] {d : Int} {s : State}
    (h : exec i s = .next (if c then s.jumpBy d else s).continued) :
    ∃ t, exec i s = .next t ∧ s.onlyPc t ∧ t.returned .continued false ∧
      t.pc = if c then s.pc + trunc32 d else s.pc := by
  by_cases hc : c
  · rw [if_pos hc] at h ⊢
    exact ⟨_, h, ⟨fun _ => rfl, fun _ => rfl, fun _ => rfl, rfl⟩, ⟨rfl, rfl⟩, s.jumpBy_pc d⟩
  · rw [if_neg hc] at h ⊢
    exact ⟨_, h, ⟨fun _ => rfl, fun _ => rfl, fun _ => rfl, rfl⟩, ⟨rfl, rfl⟩, rfl⟩

/-- Only a J, a BEQ or a BNE moves `pc` beyond the fetch's increment (10_state.md R25). -/
theorem ExecEffect.pc_eq_or_jumps {i : Instr} {s t : State} (h : ExecEffect i s t) :
    t.pc = s.pc ∨ i.mnemonic ∈ ["J", "BEQ", "BNE"] := by
  cases h with
  | jumped target hi => exact .inr (by simp [hi, Instr.mnemonic])
  | beqTaken rs rt imm hi => exact .inr (by simp [hi, Instr.mnemonic])
  | bneTaken rs rt imm hi => exact .inr (by simp [hi, Instr.mnemonic])
  | _ => exact .inl rfl

/-! ## The obligations about one instruction -/

/-- Settles O23: the target has fewer bits than `pc`, so nothing of it is cut. -/
theorem jumpSetsPcToTarget : Obligations.JumpSetsPcToTarget := by
  intro target s
  obtain ⟨hop, htarget⟩ := fields_encode_j target
  refine ⟨hop, htarget, _, rfl, ⟨fun _ => rfl, fun _ => rfl, fun _ => rfl, rfl⟩, ⟨rfl, rfl⟩, ?_⟩
  have hlt := target.isLt
  calc (trunc32 target.toNat).toNat = target.toNat % 2 ^ 32 := by rw [trunc32_natCast, BitVec.toNat_ofNat]
    _ = target.toNat := Nat.mod_eq_of_lt (by omega)

/-- Settles O24: BEQ ends as a branch, with the zero-extended field. -/
theorem beqAddsUnsignedOffset : Obligations.BeqAddsUnsignedOffset := by
  intro rs rt imm s
  rw [← trunc32_toNat_imm, ← beqOffset_eq]
  exact exec_onlyPc_of_branch rfl

/-- Settles O25: BNE ends as a branch, with the sign-extended field. -/
theorem bneAddsSignedOffset : Obligations.BneAddsSignedOffset := by
  intro rs rt imm s
  rw [← trunc32_toInt_imm, ← bneOffset_eq]
  exact ⟨IFormatRow.bne.opField_encode rs rt imm, exec_onlyPc_of_branch rfl⟩

/-! ## Where a taken branch lands (R129) -/

/-- A step of a taken BNE adds the signed field to the index after its own, modulo 2^32 (R127, R129). -/
theorem step_bneTaken {s : State} {w : Word} {rs rt : RegIdx} {imm : Imm16} (hf : s.fetches w)
    (hd : decode w = .ok (.bne rs rt imm)) (hne : s.readReg rs ≠ s.readReg rt) :
    ∃ t, step s = .next t ∧ (t.pc.toNat : Int) = (s.pc.toNat + 1 + imm.toInt) % 2 ^ 32 := by
  obtain ⟨-, t, ht, -, -, hpc⟩ := bneAddsSignedOffset rs rt imm { s with pc := s.pc + 1#32 }
  have hland : t.pc = s.pc + 1#32 + imm.signExtend 32 := hpc.trans (if_pos hne)
  refine ⟨t, (step_executes hf hd).trans ht, ?_⟩
  rw [hland, toNat_add_signExtend_imm, fetches_pc_succ s w hf, Nat.cast_add, Nat.cast_one]

/-- A step of a taken BEQ adds the unsigned field to the index after its own; the sum stays far below 2^32, and the
run goes on (R126, R129). -/
theorem step_beqTaken {s : State} {w : Word} {rs rt : RegIdx} {imm : Imm16} (hf : s.fetches w)
    (hd : decode w = .ok (.beq rs rt imm)) (heq : s.readReg rs = s.readReg rt) :
    ∃ t, step s = .next t ∧ t.run = .loaded ∧ t.pc.toNat = s.pc.toNat + 1 + imm.toNat := by
  obtain ⟨t, ht, ⟨-, -, -, hrun⟩, -, hpc⟩ := beqAddsUnsignedOffset rs rt imm { s with pc := s.pc + 1#32 }
  have hland : t.pc = s.pc + 1#32 + imm.setWidth 32 := hpc.trans (if_pos heq)
  have hsucc := fetches_pc_succ s w hf
  have ⟨hloaded, hle, _⟩ := hf
  have himm := imm.isLt
  refine ⟨t, (step_executes hf hd).trans ht, hrun.trans hloaded, ?_⟩
  rw [hland, toNat_add_setWidth_imm _ imm (by omega), hsucc]

/-! ## The obligations about steps -/

/-- Settles O26: a BNE target in the instruction memory is small enough to be the sum itself, and a BEQ with bit 15 of
its field set lands beyond index 255, where the next fetch ends the run. -/
theorem takenBranchLanding : Obligations.TakenBranchLanding := by
  intro s w rs rt imm hf
  have ⟨_, hle, _⟩ := hf
  constructor
  · intro hd hne
    obtain ⟨t, ht, hpc⟩ := step_bneTaken hf hd hne
    refine ⟨t, ht, hpc, fun target htarget => ?_⟩
    have himm := imm_toInt_range imm
    omega
  · intro hd heq
    obtain ⟨t, ht, hrun, hpc⟩ := step_beqTaken hf hd heq
    refine ⟨t, ht, hpc, by omega, fun hbit => ?_⟩
    have hout : 255 < t.pc.toNat := by omega
    exact ⟨hout, _, step_fetchOutOfRange t hrun hout, rfl, rfl, rfl⟩

/-- Settles O27: an unknown word leaves `pc` incremented, and so does every instruction but the three. -/
theorem onlyJumpsAndBranchesMovePc : Obligations.OnlyJumpsAndBranchesMovePc := by
  intro s t w hf ht hmoved
  cases hd : decode w with
  | error e =>
    cases (step_raises_unknown hf hd).symm.trans ht
    exact absurd rfl hmoved
  | ok i =>
    have heff := execEffect_of_next i _ t ((step_executes hf hd).symm.trans ht)
    exact ⟨i, rfl, heff.pc_eq_or_jumps.resolve_left hmoved⟩

/-- Settles O28: the jump undoes the fetch's increment, so the step only reports, and so does every later one. -/
theorem selfJumpRunsForever : Obligations.SelfJumpRunsForever := by
  intro k s target hf htarget
  have hexec := step_executes hf (decode_encode_j (Laws.FormatWellFormed.j target))
  have hback : State.jumpTo target.toNat { s with pc := s.pc + 1#32 } = s := by
    rw [htarget, State.jumpTo_pc_of_setPc]
  have hstep : step s = .next (s.report .continued false) :=
    hexec.trans (congrArg (fun u : State => Host.Outcome.next u.continued) hback)
  exact core_run_of_step_eq_report hstep k

end Sys2Proof.Machine
end

section
/-! SUPPORT. The immediate ALU instructions (43_alu_immediate.md): what each writes, read off the two endings of an ALU
instruction, the 32-bit patterns an immediate stands for, and the upper half of a sign-extended immediate. -/

namespace Sys2Proof.Machine

/-! ## The patterns of a sign-extended immediate (R141) -/

/-- A pattern is an immediate's exactly when its signed view has 16 bits. -/
theorem exists_imm_toInt_eq_iff (v : Word) :
    (∃ imm : Imm16, v.toInt = imm.toInt) ↔ -32768 ≤ v.toInt ∧ v.toInt ≤ 32767 := by
  constructor
  · rintro ⟨imm, himm⟩
    exact himm ▸ imm_toInt_range imm
  · rintro ⟨hlo, hhi⟩
    exact ⟨BitVec.ofInt 16 v.toInt, (BitVec.toInt_ofInt_eq_self (by decide) hlo (Int.lt_add_one_of_le hhi)).symm⟩

/-- The signed view has 16 bits exactly in the lowest and the highest 2^15 patterns. -/
theorem toInt_imm_range_iff_toNat (v : Word) :
    (-32768 ≤ v.toInt ∧ v.toInt ≤ 32767) ↔ (v.toNat ≤ 0x7FFF ∨ 0xFFFF8000 ≤ v.toNat) := by
  have hlt := v.isLt
  rw [BitVec.toInt_eq_toNat_cond]
  split <;> omega

/-- Sign extension fills the upper half with bit 15 of the immediate (00_scope.md R9). -/
theorem upperHalf_signExtend_imm (imm : Imm16) :
    (imm.signExtend 32).extractLsb' 16 16 = if imm.msb then BitVec.allOnes 16 else 0x0000#16 := by
  rw [BitVec.signExtend_eq_append_of_le (by decide)]
  exact BitVec.extractLsb'_append_eq_left

/-! ## The obligations about one instruction -/

/-- Settles O19: ADDI ends in `commitSigned` of the exact sum with the signed view of the immediate. -/
theorem addiWritesSumOrReportsOverflow : Obligations.AddiWritesSumOrReportsOverflow := by
  intro rt rs imm s
  rw [← simm_eq]
  exact ⟨IFormatRow.addi.opField_encode rs rt imm, _, rfl, s.commitSigned_writes_or_reports rt _⟩

/-- Settles O20: ADDIU ends in `commit` of the sum of the two patterns. -/
theorem addiuWritesWrappedSum : Obligations.AddiuWritesWrappedSum := by
  intro rt rs imm s
  rw [← sext32, ← trunc32_toNat_add]
  exact exec_writes_of_commit rfl

/-- Settles O21: each ends in `commit` of its bitwise result. -/
theorem immediateLogicWritesBitwiseResult : Obligations.ImmediateLogicWritesBitwiseResult := fun rt rs imm _ =>
  ⟨⟨IFormatRow.andi.opField_encode rs rt imm, exec_writes_of_commit rfl⟩,
    ⟨IFormatRow.ori.opField_encode rs rt imm, exec_writes_of_commit rfl⟩,
    ⟨IFormatRow.xori.opField_encode rs rt imm, exec_writes_of_commit rfl⟩⟩

/-! ## The constants one instruction makes (R141) -/

/-- From a zero register ADDI cannot overflow, so it makes the immediate. -/
theorem exec_addi_of_zero {rs : RegIdx} {s : State} (h : s.readReg rs = 0x00000000#32) (rt : RegIdx) (imm : Imm16) :
    ∃ t, exec (.addi rt rs imm) s = .next t ∧ (t.readReg rt).toInt = imm.toInt := by
  obtain ⟨-, t, ht, -, hsum⟩ := addiWritesSumOrReportsOverflow rt rs imm s
  have hrange := imm_toInt_range imm
  simp only [h, BitVec.toInt_zero, zero_add] at hsum
  rw [if_pos (by omega)] at hsum
  obtain ⟨hval, -⟩ := hsum
  exact ⟨t, ht, hval⟩

/-- Zero is neutral for the sum, the or and the exclusive or, so ADDIU, ORI and XORI make the immediate as ADDI does. -/
theorem exec_makes_imm_of_zero {rs : RegIdx} {s : State} (h : s.readReg rs = 0x00000000#32) (rt : RegIdx)
    (imm : Imm16) {i : Instr}
    (hi : i ∈ [Instr.addi rt rs imm, Instr.addiu rt rs imm, Instr.ori rt rs imm, Instr.xori rt rs imm]) :
    ∃ t, exec i s = .next t ∧ (t.readReg rt).toInt = imm.toInt := by
  have hext : (imm.signExtend 32).toInt = imm.toInt := sext32_toInt imm
  obtain ⟨-, ⟨-, tor, htor, -, -, hor⟩, ⟨-, txor, htxor, -, -, hxor⟩⟩ :=
    immediateLogicWritesBitwiseResult rt rs imm s
  obtain ⟨tadd, htadd, -, -, hadd⟩ := addiuWritesWrappedSum rt rs imm s
  simp only [List.mem_cons, List.not_mem_nil, or_false] at hi
  rcases hi with rfl | rfl | rfl | rfl
  · exact exec_addi_of_zero h rt imm
  · exact ⟨tadd, htadd, by rw [hadd, h, BitVec.zero_add, hext]⟩
  · exact ⟨tor, htor, by rw [hor, h, BitVec.zero_or, hext]⟩
  · exact ⟨txor, htxor, by rw [hxor, h, BitVec.zero_xor, hext]⟩

/-- ANDI keeps the upper half of its source or clears it, by bit 15 of the immediate. -/
theorem exec_andi_upperHalf (rt rs : RegIdx) (imm : Imm16) (s : State) :
    ∃ t, exec (.andi rt rs imm) s = .next t ∧
      (t.readReg rt).extractLsb' 16 16 = if imm.msb then (s.readReg rs).extractLsb' 16 16 else 0x0000#16 := by
  obtain ⟨⟨-, t, ht, -, -, hand⟩, -, -⟩ := immediateLogicWritesBitwiseResult rt rs imm s
  refine ⟨t, ht, ?_⟩
  rw [hand, BitVec.extractLsb'_and, upperHalf_signExtend_imm]
  split
  · exact BitVec.and_allOnes
  · exact BitVec.and_zero

/-- Settles O22: zero is neutral for the four instructions, an immediate is a pattern whose signed view has 16 bits,
and ANDI masks the upper half with copies of bit 15. -/
theorem constantsFromTheImmediate : Obligations.ConstantsFromTheImmediate :=
  ⟨fun rt _ imm _ h _ hi => exec_makes_imm_of_zero h rt imm hi,
    fun v => (exists_imm_toInt_eq_iff v).trans (toInt_imm_range_iff_toNat v), exec_andi_upperHalf⟩

end Sys2Proof.Machine
end

section
/-! SUPPORT. Load and store (44_load_store.md): LW and SW in and out of bounds, and an SW followed by an LW of the same
address. -/

namespace Sys2Proof.Machine

/-! ## LW and SW on each side of the bounds check (R145) -/

theorem State.effectiveAddress_eq (rs : RegIdx) (imm : Imm16) (s : State) :
    s.effectiveAddress rs imm = (s.readReg rs).toInt + imm.toInt := by
  rw [State.effectiveAddress, simm_eq]

section
variable {s : State} {rs : RegIdx} {imm : Imm16}

theorem exec_lw_of_inBounds (rt : RegIdx) (h : 0 ≤ s.effectiveAddress rs imm ∧ s.effectiveAddress rs imm ≤ 1023) :
    exec (.lw rt imm rs) s = .next (s.commit rt (s.readData (s.effectiveAddress rs imm).toNat)) :=
  if_pos ((dataInBounds_iff _).mpr h)

theorem exec_sw_of_inBounds (rt : RegIdx) (h : 0 ≤ s.effectiveAddress rs imm ∧ s.effectiveAddress rs imm ≤ 1023) :
    exec (.sw rt imm rs) s =
      .next (s.writeData (s.effectiveAddress rs imm).toNat (s.readReg rt)).continued :=
  if_pos ((dataInBounds_iff _).mpr h)

/-- Out of bounds LW and SW end alike: they raise, and raising writes nothing (60_exceptions.md R152, R154). -/
theorem exec_raises_of_outOfBounds {rt : RegIdx} {i : Instr} (hi : i = .lw rt imm rs ∨ i = .sw rt imm rs)
    (h : ¬ (0 ≤ s.effectiveAddress rs imm ∧ s.effectiveAddress rs imm ≤ 1023)) :
    ∃ t, exec i s = .next t ∧ s.nothing t ∧
      t.returned (.error (.dataAddressOutOfBounds (s.effectiveAddress rs imm))) false := by
  have hout := mt (dataInBounds_iff _).mp h
  refine ⟨s.raise (.dataAddressOutOfBounds (s.effectiveAddress rs imm)), ?_, s.nothing_report _ _, rfl, rfl⟩
  rcases hi with rfl | rfl
  · exact if_neg hout
  · exact if_neg hout

end

/-! ## The obligations -/

/-- Settles O29: in bounds LW ends in `commit` of the data word, otherwise it raises before the read. -/
theorem lwLoadsInBoundsOrRaises : Obligations.LwLoadsInBoundsOrRaises := by
  intro rt imm rs s
  rw [← State.effectiveAddress_eq]
  by_cases ha : 0 ≤ s.effectiveAddress rs imm ∧ s.effectiveAddress rs imm ≤ 1023
  · simp only [if_pos ha]
    obtain ⟨t, ht, honly, hret, hval⟩ := exec_writes_of_commit (exec_lw_of_inBounds rt ha)
    exact ⟨t, ht, hval, honly, hret⟩
  · simp only [if_neg ha]
    exact exec_raises_of_outOfBounds (.inl rfl) ha

/-- Settles O30: in bounds SW writes one data word, otherwise it raises before the write. -/
theorem swStoresInBoundsOrRaises : Obligations.SwStoresInBoundsOrRaises := by
  intro rt imm rs s
  rw [← State.effectiveAddress_eq]
  by_cases ha : 0 ≤ s.effectiveAddress rs imm ∧ s.effectiveAddress rs imm ≤ 1023
  · simp only [if_pos ha]
    have hframe : ∀ b : Nat, (b : Int) ≠ s.effectiveAddress rs imm →
        (s.dmem.write (s.effectiveAddress rs imm).toNat (s.readReg rt)).read b = s.dmem.read b := fun b hb =>
      Memory.read_write_ne _ _ b _ (by omega)
    exact ⟨_, exec_sw_of_inBounds rt ha, Memory.read_write_self .., hframe,
      fun _ => rfl, rfl, fun _ => rfl, rfl, rfl, rfl⟩
  · simp only [if_neg ha]
    exact exec_raises_of_outOfBounds (.inr rfl) ha

/-- Settles O31: SW changes no register, so the LW after it computes its address as in the state before, and passes or
fails the same check. -/
theorem storeThenLoadReturnsTheValue : Obligations.StoreThenLoadReturnsTheValue := by
  intro s r1 r2 b1 b2 i1 i2 heq
  obtain ⟨t, ht, hstore⟩ := swStoresInBoundsOrRaises r1 i1 b1 s
  obtain ⟨u, hu, hload⟩ := lwLoadsInBoundsOrRaises r2 i2 b2 t
  refine ⟨t, u, ht, hu, ?_⟩
  by_cases ha : 0 ≤ (s.readReg b1).toInt + i1.toInt ∧ (s.readReg b1).toInt + i1.toInt ≤ 1023
  · rw [if_pos ha] at hstore ⊢
    obtain ⟨hstored, -, hregs, -, -, -, hret⟩ := hstore
    rw [hregs b2, ← heq, if_pos ha] at hload
    obtain ⟨hloaded, -, hret'⟩ := hload
    exact ⟨hret, hloaded.trans hstored, hret'⟩
  · rw [if_neg ha] at hstore ⊢
    obtain ⟨⟨⟨hregs, -⟩, -⟩, hret⟩ := hstore
    rw [hregs b2, ← heq, if_neg ha] at hload
    obtain ⟨⟨⟨hkept, -⟩, -⟩, hret'⟩ := hload
    exact ⟨hret, (hkept r2).trans (hregs r2), hret'⟩

end Sys2Proof.Machine
end

section
/-! SUPPORT. Precise errors (60_exceptions.md R150 to R155): the one effect of an instruction, and the two of a step,
that report an error. -/

namespace Sys2Proof.Machine

/-- Of all effects of an instruction only the failed bounds check of LW and SW reports an error, and it changes the
outputs alone (R152, R154). -/
theorem ExecEffect.outOfBounds_of_error {i : Instr} {s t : State} {e : StepError} (h : ExecEffect i s t)
    (ho : t.outcome = some (.error e)) :
    t = s.report (.error e) false ∧ ∃ rt imm rs, (i = .lw rt imm rs ∨ i = .sw rt imm rs) ∧
      e = .dataAddressOutOfBounds (s.effectiveAddress rs imm) ∧
      ¬ (0 ≤ s.effectiveAddress rs imm ∧ s.effectiveAddress rs imm ≤ 1023) := by
  cases h with
  | outOfBounds rt imm rs hi ha =>
    cases ho
    exact ⟨rfl, rt, imm, rs, hi, rfl, ha⟩
  | _ => cases ho

/-- A step that reports an error fetched an unknown word, or executed an instruction that reports it. -/
theorem StepEffect.unknown_or_executed_of_error {s t : State} {e : StepError} (h : StepEffect s t)
    (ho : t.outcome = some (.error e)) :
    (∃ w d, s.fetches w ∧ decode w = .error d ∧ e = .unknownInstruction w ∧
      t = { s with pc := s.pc + 1#32 }.report (.error e) false) ∨
    ∃ w i, s.fetches w ∧ decode w = .ok i ∧ ExecEffect i { s with pc := s.pc + 1#32 } t := by
  cases h with
  | unknown w d hf hd =>
    cases ho
    exact .inl ⟨w, d, hf, hd, rfl, rfl⟩
  | executed w i hf hd t he => exact .inr ⟨w, i, hf, hd, he⟩
  | _ => cases ho

/-- Settles O36: both effects that report an error are `report` on the state after the fetch's increment of `pc`, and
the increment changes no register, so the address is that of the state before the step. -/
theorem errorsArePrecise : Obligations.ErrorsArePrecise := by
  intro s t e ht ho
  rcases (stepEffect_of_next s t ht).unknown_or_executed_of_error ho with
    ⟨w, d, hf, hd, he, rfl⟩ | ⟨w, i, hf, hd, heff⟩
  · exact ⟨rfl, w, hf, .inl ⟨he, d, hd⟩⟩
  · obtain ⟨rfl, rt, imm, rs, hi, he, hout⟩ := heff.outOfBounds_of_error ho
    rw [State.effectiveAddress_eq] at he hout
    have hls : decode w = .ok (.lw rt imm rs) ∨ decode w = .ok (.sw rt imm rs) := by
      rw [hd]
      exact hi.imp (congrArg Except.ok) (congrArg Except.ok)
    exact ⟨rfl, w, hf, .inr ⟨rt, imm, rs, hls, he, hout⟩⟩

end Sys2Proof.Machine
end

section
/-! SUPPORT. The host transactions (70_reset_and_hazards.md R171, R172, R173, R176): the program that `load` installs and
the first word fetched after it, and that every step reports an outcome. -/

namespace Sys2Proof.Machine

/-! ## The program that `load` installs (R172) -/

/-- The cut to 256 words is not seen by a read below 256. -/
theorem State.load_imem_read (ws : List Word) (s : State) {k : Nat} (hk : k < 256) :
    (s.load ws).imem.read k = ws.getD k 0x00000000#32 := by
  have hread : (Memory.ofWords 0 (ws.take 256)).read k = (ws.take 256).getD k Config.unlistedWord := by
    simpa using Memory.read_ofWords 0 k (ws.take 256)
  simp [hread, Config.unlistedWord_eq, List.getD_eq_getElem?_getD, List.getElem?_take_of_lt hk]

/-- `load` keeps the first 256 words, so what it installs is canonical and inside the address space (20_memory.md R48). -/
theorem State.load_imem_wf (ws : List Word) (s : State) : (s.load ws).imem.wf Config.imemWords = true := by
  have hlen : (ws.take Config.imemWords).length ≤ Config.imemWords := List.length_take_le _ _
  exact Memory.wf_ofWords _ 0 _ (by rwa [Nat.zero_add])

/-- The step after a `load` fetches the first word, or the zero word when none was loaded (R172, R173). -/
theorem State.load_fetches (ws : List Word) (s : State) : (s.load ws).fetches (ws.getD 0 0x00000000#32) :=
  ⟨rfl, Nat.zero_le 255, s.load_imem_read ws (k := 0) (by decide)⟩

/-! ## Every step reports an outcome (40_fetch_step.md R96) -/

theorem ExecEffect.exists_outcome {i : Instr} {s t : State} (h : ExecEffect i s t) : ∃ o, t.outcome = some o := by
  cases h <;> exact ⟨_, rfl⟩

theorem StepEffect.exists_outcome {s t : State} (h : StepEffect s t) : ∃ o, t.outcome = some o := by
  cases h with
  | executed _ _ _ _ _ he => exact he.exists_outcome
  | _ => exact ⟨_, rfl⟩

/-! ## The step transaction (R171) -/

/-- A step that answers hands the host its outcome and OVF. -/
theorem transact_step_of_next {s t : State} (h : step s = .next t) :
    transact .step s = .next (t, .stepped t.outcome t.ovf) := by
  simp [transact, h]

theorem transact_step_of_refused {s : State} {r : Refusal} (h : step s = .refused r) :
    transact .step s = .refused r := by
  simp [transact, h]

/-! ## The obligations -/

/-- Settles O42: the instruction memory is read at each index below 256, registers and data memory are the fields of the
state before, and the count is the length less 256. -/
theorem loadInstallsTheProgram : Obligations.LoadInstallsTheProgram := by
  intro words s
  have hcount : loadDropped words + min words.length 256 = words.length := by
    simp only [loadDropped, Config.imemWords_eq]
    omega
  exact ⟨rfl, rfl, rfl, fun _ hk => s.load_imem_read words hk, fun _ => rfl, fun _ => rfl, hcount⟩

/-- Settles O47: of the state before only the data memory matters, since `load` sets every other field that the
invariant speaks of. -/
theorem loadKeepsTheInvariant : Obligations.LoadKeepsTheInvariant := by
  rintro words s ⟨hmem, -, -, -⟩
  have hmem' : (s.load words).memoriesWf = true :=
    (State.memoriesWf_iff _).mpr ⟨s.load_imem_wf words, (s.memoriesWf_iff.mp hmem).2⟩
  have hpc : (s.load words).pcReachable := .inl (Nat.two_pow_pos 26)
  have hovf : (s.load words).ovfOnlyContinued := fun h => absurd h Bool.false_ne_true
  have hrun : (s.load words).runAgrees := (State.runAgrees_of_loaded rfl).mpr ⟨nofun, nofun⟩
  exact ⟨hmem', hpc, hovf, hrun⟩

/-- Settles O43: the first step fetches word 0 and executes what it decodes to; after an empty load that is EMPTY. -/
theorem firstStepAfterLoad : Obligations.FirstStepAfterLoad := by
  intro s
  constructor
  · intro w ws i hd
    exact step_executes (s.load_fetches (w :: ws)) hd
  · have hstep : step (s.load []) = exec .empty { s.load [] with pc := 1#32 } :=
      step_executes (s.load_fetches []) decode_empty
    obtain ⟨-, t, ht, hrun, hret, -, hpc, -⟩ := sentinelsSetRunStateOnly { s.load [] with pc := 1#32 }
    exact ⟨t, hstep.trans ht, hpc, hrun, hret⟩

/-- Settles O44: outside Idle the step has one of the listed effects and each reports an outcome; the other answers are
those that `transact` states. -/
theorem transactionsAnswer : Obligations.TransactionsAnswer := by
  intro s
  have hload (words : List Word) :
      transact (.load words) s = .next (s.load words, .dropped (max (words.length : Int) 256 - 256).toNat) := by
    have hcount : loadDropped words = (max (words.length : Int) 256 - 256).toNat := by
      simp only [loadDropped, Config.imemWords_eq]
      omega
    rw [← hcount]
    rfl
  have hstep (hr : s.run ≠ .idle) : ∃ t o, step s = .next t ∧ t.outcome = some o ∧
      transact .step s = .next (t, .stepped (some o) t.ovf) := by
    obtain ⟨t, ht, heff⟩ := step_effect s hr
    obtain ⟨o, ho⟩ := heff.exists_outcome
    exact ⟨t, o, ht, ho, ho ▸ transact_step_of_next ht⟩
  exact ⟨hload, hstep, fun hr => transact_step_of_refused (step_idle s hr), fun _ => rfl, fun _ => rfl, rfl⟩

end Sys2Proof.Machine
end
